-- ==== Sys2Proof/Word.lean ====
section
/-! DEFINITION. The words and bit strings of frame_encoder (spec/00_scope.md rules R8 and R9, spec/30_encoding.md rules R42 and R47). -/

namespace Sys2Proof

/-- A bit (R8): `true` is 1, `false` is 0. -/
abbrev Bit := Bool

/-- A bit string (R8), written left to right: element 0 is the leftmost bit and the first transmitted. -/
abbrev BitString := List Bit

/-- An 8-bit character code `c[7:0]` (R9). -/
abbrev Code := BitVec 8

/-- A command word `cmd[15:0]` (R42). -/
abbrev CommandWord := BitVec 16

/-- A response word `resp[7:0]` (R47). -/
abbrev ResponseWord := BitVec 8

/-- A bit string written with the digits 0 and 1, as the spec writes it in code type (R8). -/
def bits (digits : List Nat) : BitString := digits.map (· == 1)

end Sys2Proof
end

