-- ==== Sys2Proof/Config.lean ====
section
/-! DEFINITION. The parameters of one frame_encoder instance (spec/00_scope.md rules R5 to R7, spec/10_state.md rules R12 and R28).
They are open in the spec: a machine state carries the parameters of its instance (notes/assumptions/1.md), and no statement fixes them,
except those that the spec itself makes about `REFCFG`. No run changes them (R106; notes/assumptions/13.md). -/

namespace Sys2Proof

/-- `P2_SOURCE` (R5): which character count parity bit 2 is taken from (R64). -/
inductive P2Source where
  /-- `ACCEPTED`, the default: the count of accepted characters. -/
  | accepted
  /-- `PUSHED`: the count of every pushed code, dropped ones included. -/
  | pushed
  deriving DecidableEq, Repr

/-- The configuration `cfg = (SM, EM, MAX_CHARS, P2_SOURCE)` of R5 and R12. -/
structure Config where
  /-- `SM`, the start marker. -/
  sm : BitString
  /-- `EM`, the end marker. -/
  em : BitString
  /-- `MAX_CHARS`, the capacity of the payload buffer in characters. -/
  maxChars : Nat
  /-- `P2_SOURCE`. -/
  p2Source : P2Source
  deriving DecidableEq, Repr

/-- `LS = |SM|` (R5). -/
def Config.ls (cfg : Config) : Nat := cfg.sm.length

/-- `LE = |EM|` (R5). -/
def Config.le (cfg : Config) : Nat := cfg.em.length

/-- The number of cells of the payload buffer, `8*MAX_CHARS` (R29). -/
def Config.cells (cfg : Config) : Nat := 8 * cfg.maxChars

/-- The length of a frame of `n` characters, `LS + 8*n + 2 + LE` (R20, R67). -/
def Config.frameLength (cfg : Config) (n : Nat) : Nat := cfg.ls + 8 * n + 2 + cfg.le

/-- `ceil(log2 n)`: the least `w` with `n ≤ 2^w`. -/
def ceilLog2 (n : Nat) : Nat := ((List.range (n + 1)).find? fun w => decide (n ≤ 2 ^ w)).getD n

/-- `W_CC = ceil(log2(MAX_CHARS + 1))` (R28). -/
def Config.wCC (cfg : Config) : Nat := ceilLog2 (cfg.maxChars + 1)

/-- `W_FL = ceil(log2(LS + 8*MAX_CHARS + 2 + LE + 1))` (R28). -/
def Config.wFL (cfg : Config) : Nat := ceilLog2 (cfg.frameLength cfg.maxChars + 1)

/-- The reference configuration `REFCFG` (R7). -/
def refcfg : Config where
  sm := bits [0, 1, 1, 1, 1, 1, 1, 1, 1, 1, 0, 1]
  em := bits [0, 0, 1, 0, 0, 0, 0, 0, 0, 0, 0, 1, 0]
  maxChars := 16
  p2Source := .accepted

end Sys2Proof
end

