-- ==== Sys2Proof/Syntax.lean ====
section
/-! DEFINITION. The commands of frame_encoder (spec/opcode_table.json, spec/30_encoding.md rule R44), its response codes (R48), and the
lines of its assembler (R50, R51). -/

namespace Sys2Proof

/-- A legal command: one constructor per row of spec/opcode_table.json. Commands play the role of instructions (spec/00_scope.md
section 6). -/
inductive Instr where
  /-- CLR (R57): start a fresh message. -/
  | clr
  /-- PUSH (R58): filter, expand and accumulate the character code `c`. -/
  | push (c : Code)
  /-- BUILD (R66): form the frame and make it available to the read-out port. -/
  | build
  /-- POP (R73): read out the next frame bit. -/
  | pop
  /-- REWIND (R74): restart the read-out from frame bit 0. -/
  | rewind
  deriving DecidableEq, Repr

/-- The response codes that the block produces (R48); codes 0x7 to 0xF are never produced. -/
inductive RespCode where
  /-- OK (0x0): the command did its work. -/
  | ok
  /-- DROP (0x1): the pushed code is not an allowed character. A success, not an error. -/
  | drop
  /-- FULL (0x2): the payload buffer is full. -/
  | full
  /-- EMPTY (0x3): BUILD with no accepted character. -/
  | empty
  /-- BADSTATE (0x4): the command is not valid in the current mode. -/
  | badstate
  /-- DRAINED (0x5): POP after the last frame bit. -/
  | drained
  /-- ILLEGAL (0x6): the command word is illegal. -/
  | illegal
  deriving DecidableEq, Repr

/-- An `<imm8>` operand of the assembler (R50): a number, or a quoted character standing for its code. -/
inductive Imm8 where
  | number (n : Nat)
  | quoted (c : Char)
  deriving DecidableEq, Repr

/-- One line of the assembler (R50) or one pseudo-command (R51). -/
inductive AsmLine where
  /-- A line that holds nothing but a comment. -/
  | blank
  | clr
  | push (v : Imm8)
  | build
  | pop
  | rewind
  /-- `.word 0xHHHH`: a raw command word. -/
  | word (w : Nat)
  /-- `PUSHS "s"`. -/
  | pushs (text : List Char)
  /-- `SEND "s"`. -/
  | send (text : List Char)
  /-- `POPN n`. -/
  | popn (n : Nat)
  deriving DecidableEq, Repr

end Sys2Proof
end

