-- ==== Sys2Proof/WellFormed.lean ====
section
/-! DEFINITION. Which terms are well-formed: a configuration (spec/00_scope.md rule R6) and a line of the assembler
(spec/30_encoding.md rules R50 and R51). An `Instr` needs no check: its one operand is any 8-bit code (R43). -/

namespace Sys2Proof

/-- R6 (a): each marker has at least 8 bits. -/
def Config.markersLongEnough (cfg : Config) : Bool := decide (8 ≤ cfg.ls) && decide (8 ≤ cfg.le)

/-- R6 (b): the markers are distinct. -/
def Config.markersDistinct (cfg : Config) : Bool := cfg.sm != cfg.em

/-- R6 (c): neither marker begins the other. -/
def Config.neitherBegins (cfg : Config) : Bool := !(cfg.sm.isPrefixOf cfg.em) && !(cfg.em.isPrefixOf cfg.sm)

/-- R6 (d): there is room for a character. -/
def Config.hasCapacity (cfg : Config) : Bool := decide (1 ≤ cfg.maxChars)

/-- `WF(cfg)` (R6). -/
def Config.wf (cfg : Config) : Bool :=
  cfg.markersLongEnough && cfg.markersDistinct && cfg.neitherBegins && cfg.hasCapacity

/-- The code that an `<imm8>` operand stands for (R50). -/
def Imm8.value : Imm8 → Nat
  | .number n => n
  | .quoted c => c.toNat

/-- R50 and R51: every character of a string fits in 8 bits. -/
def textWf (text : List Char) : Bool := text.all fun c => decide (c.toNat ≤ 255)

/-- The lines that the assembler does not refuse (R50, R51): an `<imm8>` is in 0 to 255, every quoted character and every character of
a string has a code of at most 255, and a raw word has 16 bits. -/
def AsmLine.wf : AsmLine → Bool
  | .push v => decide (v.value ≤ 255)
  | .word w => decide (w ≤ 0xFFFF)
  | .pushs text => textWf text
  | .send text => textWf text
  | .blank | .clr | .build | .pop | .rewind | .popn _ => true

end Sys2Proof
end

