-- ==== Sys2Proof/Decode.lean ====
section
/-! DEFINITION. Command words (spec/30_encoding.md rules R42 to R46): the fields of a word, the decoder, which is total and rejects by
name, and after it the encoder. -/

namespace Sys2Proof

/-- `op`, `cmd[15:12]` (R42). -/
def opField (w : CommandWord) : BitVec 4 := w.extractLsb' 12 4

/-- `rsv`, `cmd[11:8]` (R42). -/
def rsvField (w : CommandWord) : BitVec 4 := w.extractLsb' 8 4

/-- `data`, `cmd[7:0]` (R42, R43). -/
def dataField (w : CommandWord) : Code := w.extractLsb' 0 8

/-- Why a command word is illegal (R46). Each is answered ILLEGAL; which name a word with several faults gets is the
model's choice (DESIGN CHOICE, notes/assumptions/17.md). -/
inductive DecodeError where
  /-- The reserved `op` values 0x0 and 0x6 to 0xF. -/
  | reservedOp
  /-- A nonzero `rsv`. -/
  | reservedBits
  /-- A nonzero `data` with an `op` other than PUSH. -/
  | dataNotZero
  deriving DecidableEq, Repr

/-- A command without an operand: its `data` must be 0 (R42). -/
def withoutOperand (w : CommandWord) (i : Instr) : Except DecodeError Instr :=
  if dataField w = 0#8 then .ok i else .error .dataNotZero

/-- The opcode map (R44) under the legality rule (R45). Total: every word that is not legal is rejected by the name of what is wrong
with it (R46). -/
def decode (w : CommandWord) : Except DecodeError Instr :=
  if rsvField w ≠ 0#4 then .error .reservedBits
  else if opField w = 0x1#4 then withoutOperand w .clr
  else if opField w = 0x2#4 then .ok (.push (dataField w))
  else if opField w = 0x3#4 then withoutOperand w .build
  else if opField w = 0x4#4 then withoutOperand w .pop
  else if opField w = 0x5#4 then withoutOperand w .rewind
  else .error .reservedOp

/-- The word with the fields `op`, `rsv = 0` and `data` (R42). -/
def commandWord (op : BitVec 4) (data : Code) : CommandWord :=
  op.setWidth 16 <<< 12 ||| data.setWidth 16

/-- The `op` of each command (R44). -/
def Instr.op : Instr → BitVec 4
  | .clr => 0x1#4
  | .push _ => 0x2#4
  | .build => 0x3#4
  | .pop => 0x4#4
  | .rewind => 0x5#4

/-- The `data` of each command (R42): the character code of PUSH, 0 for every other command. -/
def Instr.data : Instr → Code
  | .push c => c
  | .clr | .build | .pop | .rewind => 0#8

/-- The word of a command (R42, R44). -/
def encode (i : Instr) : CommandWord := commandWord i.op i.data

/-- R45 in the spec's words: a command word is legal exactly when `op` is one of 0x1 to 0x5, `rsv = 0`, and either `op = 0x2` or
`data = 0`. -/
def legal (w : CommandWord) : Bool :=
  decide (1 ≤ (opField w).toNat ∧ (opField w).toNat ≤ 5) && decide (rsvField w = 0#4) &&
    (decide (opField w = 0x2#4) || decide (dataField w = 0#8))

/-- A match and mask pair of R45. -/
structure OpcodeRow where
  mnemonic : String
  bitsSet : CommandWord
  mask : CommandWord
  deriving DecidableEq, Repr

/-- The match/mask pairs of R45, in the order of spec/opcode_table.json. -/
def opcodeTable : List OpcodeRow :=
  [⟨"CLR", 0x1000#16, 0xFFFF#16⟩, ⟨"PUSH", 0x2000#16, 0xFF00#16⟩, ⟨"BUILD", 0x3000#16, 0xFFFF#16⟩,
    ⟨"POP", 0x4000#16, 0xFFFF#16⟩, ⟨"REWIND", 0x5000#16, 0xFFFF#16⟩]

/-- A word matches a row when its bits under the mask are the row's. -/
def OpcodeRow.covers (r : OpcodeRow) (w : CommandWord) : Bool := decide (w &&& r.mask = r.bitsSet)

/-- The command word whose bits the host numbers `w`, bit 0 the least significant; only the low `nbits` bits of `w` count, and every
bit above them is 0. A command is always exactly one 16-bit word (R42, R49), so there is no byte order to choose (R33). DESIGN
CHOICE: notes/assumptions/16.md. -/
def tableWord (nbits w : Nat) : CommandWord := BitVec.ofNat 16 (w % 2 ^ nbits)

/-- The command that the decoder reads from a word numbered as spec/opcode_table.json numbers it. -/
def decodeTableWord (nbits w : Nat) : Option Instr :=
  match decode (tableWord nbits w) with
  | .ok i => some i
  | .error _ => none

end Sys2Proof
end

