-- ==== Sys2Proof/Machine/Operands.lean ====
section
/-! DEFINITION. The one operand of the block, the character code of PUSH (spec/30_encoding.md rule R43): the character filter and the bit
expansion (spec/40_bitcodec.md rules R53 to R55). -/

namespace Sys2Proof.Machine

/-- `c[k]`, bit `k` of a code (R9). -/
def codeBit (c : Code) (k : Nat) : Bit := c.getLsbD k

/-- `ALLOWED(c)` (R53): the codes of `[A-Za-z0-9]`, which the spec takes from ASCII (notes/assumptions/22.md). -/
def allowed (c : Code) : Bool :=
  (decide (0x30 ≤ c.toNat) && decide (c.toNat ≤ 0x39)) ||
  (decide (0x41 ≤ c.toNat) && decide (c.toNat ≤ 0x5A)) ||
  (decide (0x61 ≤ c.toNat) && decide (c.toNat ≤ 0x7A))

/-- `EXP8(c)` (R55): the 8 bits of a code, most significant first, leading zeros kept. -/
def exp8 (c : Code) : BitString :=
  [codeBit c 7, codeBit c 6, codeBit c 5, codeBit c 4, codeBit c 3, codeBit c 2, codeBit c 1, codeBit c 0]

/-- `popcount(c)`, the number of 1 bits in `c[7:0]` (R10). -/
def popcount (c : Code) : Nat := ((List.range 8).filter fun k => codeBit c k).length

end Sys2Proof.Machine
end

