-- ==== Sys2Proof/Machine/State.lean ====
section
/-! DEFINITION. The state of frame_encoder (spec/10_state.md rules R12 to R21 and R27), the ports through which its host drives it
(spec/60_exceptions.md rule R98, spec/70_reset_and_hazards.md rule R102), the reasons a step can stop, and the state after reset. -/

namespace Sys2Proof.Machine

/-- `mode` (R14). -/
inductive Mode where
  /-- `ACCUM` (0): accumulating characters. -/
  | accum
  /-- `READY` (1): holding a built frame for read-out. -/
  | ready
  deriving DecidableEq, Repr

/-- The contents of the payload buffer `pbuf` (R15, R29): pairs of a cell's index and its bit, the indices strictly rising. A cell that
is not listed holds an unspecified value (R27; notes/assumptions/3.md, 5.md). -/
abbrev PayloadBuffer := List (Nat × Bit)

/-- The one canonical form of a payload buffer: its indices strictly rise, so that each cell is listed at most once. -/
abbrev PayloadBuffer.wf (buf : PayloadBuffer) : Prop := (buf.map Prod.fst).Pairwise (· < ·)

/-- The state of the block: exactly the fields of R13. The counters are naturals, as R28 allows (notes/assumptions/14.md); their
ranges are R25 and R26, which `Sys2Proof.Machine.Block.Inv` states. -/
structure Block where
  /-- `mode` (R14). -/
  mode : Mode
  /-- `pbuf` (R15). -/
  pbuf : PayloadBuffer
  /-- `cc`, the number of accepted characters held in `pbuf` (R16). -/
  cc : Nat
  /-- `p1`, the running parity of the payload (R17). -/
  p1 : Bit
  /-- `rawpar`, the parity of the number of codes pushed (R18). -/
  rawpar : Bit
  /-- `t1`, the payload parity that BUILD latched (R19). -/
  t1 : Bit
  /-- `t2`, the character count parity that BUILD latched (R19). -/
  t2 : Bit
  /-- `flen`, the length of the built frame (R20). -/
  flen : Nat
  /-- `rd_idx`, the index of the next frame bit that POP returns (R21). -/
  rdIdx : Nat
  deriving DecidableEq, Repr

/-- What the host does to the block between two steps (R98, R104): it issues one command word, legal or not, or it resets the block.
DESIGN CHOICE: how commands come to the block is notes/assumptions/6.md, and a command in flight at a reset is 10.md. -/
inductive HostEvent where
  | command (w : CommandWord)
  | reset
  deriving DecidableEq, Repr

/-- One frame_encoder instance with its ports. `blk` is the state that the spec gives the block; `cfg` holds the parameters of the
instance, which R12 calls no state and which no step writes (notes/assumptions/1.md). -/
structure State where
  /-- The configuration of the instance (R5, R12). -/
  cfg : Config
  /-- The state of the block (R13). -/
  blk : Block
  /-- The response port (R27, R47): the response to the latest command since reset, if there has been one. It
  stands there until the next (DESIGN CHOICE, notes/assumptions/8.md). -/
  resp : Option ResponseWord
  /-- The command port (R38, R98): what the host will do, in the order in which it does it. -/
  pending : List HostEvent
  deriving DecidableEq, Repr

/-- Why the machine stops with a fault. All three are raised only in states that no run reaches (R31, R41, R68), and all are safe
(DEDUCED, notes/assumptions/18.md). -/
inductive Fault where
  /-- Raised by `PbWrite` and `PbRead` (PUSH, POP) for a cell index of `8*MAX_CHARS` or more, which does not exist (R29). Safe. -/
  | noSuchCell
  /-- Raised by `PbRead` (POP) for a cell at index `8*cc` or more, or one that nothing has written: its value is unspecified, and R31 lets
  a model fault on reading it. Safe. -/
  | unspecifiedCell
  /-- Raised by `FB` (POP) outside READY or for an index that is no frame bit: R68 does not define it there. Safe. -/
  | frameBitUndefined
  deriving DecidableEq, Repr

/-- Why the model gives a step no meaning. -/
inductive Refusal where
  /-- Raised by `exec` for an instruction that is not modelled yet. Safe. -/
  | notModelled (mnemonic : String)
  /-- Raised by every step under a configuration that is not well-formed: R6 says that a model refuses it. Safe. -/
  | illFormedConfig
  deriving DecidableEq, Repr

/-- What one command does to the block: the new block state, the response code and the output bit (R47). -/
structure Answer where
  blk : Block
  code : RespCode
  bit : Bit
  deriving DecidableEq, Repr

/-- The block after reset (R27, R102). No cell of `pbuf` is specified. -/
def Block.atReset : Block where
  mode := .accum
  pbuf := []
  cc := 0
  p1 := false
  rawpar := false
  t1 := false
  t2 := false
  flen := 0
  rdIdx := 0

/-- An instance with configuration `cfg` right after reset (R27, R102): no response is pending, and the host has issued nothing. -/
def State.resetWith (cfg : Config) : State where
  cfg := cfg
  blk := Block.atReset
  resp := none
  pending := []

/-- The machine right after reset. The spec leaves the configuration open; it stands at `REFCFG` here (notes/assumptions/2.md, DESIGN
CHOICE), and no statement rests on that. -/
def State.reset : State := State.resetWith refcfg

end Sys2Proof.Machine
end

