-- ==== Sys2Proof/Machine/Flags.lean ====
section
/-! DEFINITION. The parity bits, which are the block's only flag-like fields beside `mode` (spec/10_state.md rule R24). -/

namespace Sys2Proof.Machine

/-- The exclusive-or over a bit string (R17): 1 exactly when it holds an odd number of 1 bits. -/
def parity (s : BitString) : Bit := s.foldr xor false

/-- `popcount(c) mod 2`, what an accepted code adds to `p1` (R58). -/
def codeParity (c : Code) : Bit := popcount c % 2 == 1

/-- A count's parity, `n mod 2`. -/
def countParity (n : Nat) : Bit := n % 2 == 1

/-- `P2` in state (R64): `cc mod 2` when `P2_SOURCE = ACCEPTED`, `rawpar` when `P2_SOURCE = PUSHED`. -/
def p2 (cfg : Config) (blk : Block) : Bit :=
  match cfg.p2Source with
  | .accepted => countParity blk.cc
  | .pushed => blk.rawpar

end Sys2Proof.Machine
end

