-- ==== Sys2Proof/Machine/Ops.lean ====
section
/-! DEFINITION. The shared operations: the payload buffer (spec/20_memory.md rules R29 to R31), the response (spec/30_encoding.md rules
R47 and R48), the two ways a command ends (spec/00_scope.md rule R10), reset (spec/70_reset_and_hazards.md rule R102), the command port
and the status ports (spec/10_state.md rule R22). -/

namespace Sys2Proof.Machine

/-! ### The payload buffer -/

/-- What a buffer lists for cell `i`; `none` is an unspecified value. -/
def cellAt : PayloadBuffer → Nat → Option Bit
  | [], _ => none
  | (k, b) :: rest, i => if k = i then some b else cellAt rest i

/-- The buffer with cell `i` set to `b`, in canonical form. -/
def setCell : PayloadBuffer → Nat → Bit → PayloadBuffer
  | [], i, b => [(i, b)]
  | (k, c) :: rest, i, b =>
    if i < k then (i, b) :: (k, c) :: rest
    else if i = k then (i, b) :: rest
    else (k, c) :: setCell rest i b

/-- `PbRead(i)` (R29). A cell beyond the buffer does not exist, and a cell at `8*cc` or above holds an unspecified value (R15, R31). -/
def pbRead (cfg : Config) (blk : Block) (i : Nat) : Except Fault Bit :=
  if cfg.cells ≤ i then .error .noSuchCell
  else if 8 * blk.cc ≤ i then .error .unspecifiedCell
  else match cellAt blk.pbuf i with
    | some b => .ok b
    | none => .error .unspecifiedCell

/-- `PbWrite(i, b)` (R29). A cell beyond the buffer does not exist. -/
def pbWrite (cfg : Config) (buf : PayloadBuffer) (i : Nat) (b : Bit) : Except Fault PayloadBuffer :=
  if cfg.cells ≤ i then .error .noSuchCell else .ok (setCell buf i b)

/-- `PbWrite(i + j, s[j])` for each bit `j` of `s` in turn. -/
def pbWriteBits (cfg : Config) (buf : PayloadBuffer) (i : Nat) : BitString → Except Fault PayloadBuffer
  | [] => .ok buf
  | b :: s =>
    match pbWrite cfg buf i b with
    | .ok buf' => pbWriteBits cfg buf' (i + 1) s
    | .error f => .error f

/-! ### Responses -/

/-- The value of a response code (R48). -/
def codeValue : RespCode → BitVec 4
  | .ok => 0x0#4
  | .drop => 0x1#4
  | .full => 0x2#4
  | .empty => 0x3#4
  | .badstate => 0x4#4
  | .drained => 0x5#4
  | .illegal => 0x6#4

/-- The error codes (R48, R87): every code but OK and DROP. -/
def isError : RespCode → Bool
  | .ok | .drop => false
  | .full | .empty | .badstate | .drained | .illegal => true

/-- The response word (R47): `resp[3:0]` is the code, `resp[4]` the bit, and `resp[7:5]` is 0. -/
def responseWord (code : RespCode) (bit : Bit) : ResponseWord :=
  (BitVec.ofBool bit).setWidth 8 <<< 4 ||| (codeValue code).setWidth 8

/-- `respond(code, b)` (R10, R47): the command ends with this response, and its state writes take effect together. -/
def respond (code : RespCode) (bit : Bit) (blk : Block) : Except Fault Answer := .ok ⟨blk, code, bit⟩

/-- `raise X` (R10, R88): the one form of every error, `respond(X, 0)` with no state written. The block has no trap (R93); this stands
where a processor would take an exception. -/
def raise (code : RespCode) (blk : Block) : Except Fault Answer := respond code false blk

/-! ### A step -/

/-- R6: a configuration that is not well-formed is refused (notes/assumptions/12.md). -/
def configured (s : State) (o : Host.Outcome State Fault Refusal) : Host.Outcome State Fault Refusal :=
  if s.cfg.wf then o else .refused .illFormedConfig

/-- The instance after a command's answer: the block's new state, and its one response (R47, R87). -/
def answer (s : State) (a : Answer) : State := { s with blk := a.blk, resp := some (responseWord a.code a.bit) }

/-- One command as one atomic step (R38): `effect` computes the block's whole effect from the state that all earlier commands left. -/
def perform (s : State) (effect : Config → Block → Except Fault Answer) : Host.Outcome State Fault Refusal :=
  configured s <|
    match effect s.cfg s.blk with
    | .ok a => .next (answer s a)
    | .error f => .fault f

/-- An illegal command word (R46, R89): ILLEGAL, from the decode of the word, before the mode is looked at. -/
def execIllegal (s : State) : Host.Outcome State Fault Refusal := perform s fun _ blk => raise .illegal blk

/-- The block after reset (R27, R102): every field at its reset value. The cells of `pbuf` are not cleared; `cc = 0` leaves every one
of them unspecified (R15; notes/assumptions/4.md). -/
def resetBlock (blk : Block) : Block :=
  { Block.atReset with pbuf := blk.pbuf }

/-- Reset as the host applies it, between commands (R102, R104): no response is pending after it. -/
def takeReset (s : State) : Host.Outcome State Fault Refusal :=
  configured s (.next { s with blk := resetBlock s.blk, resp := none })

/-- A step in which the host does nothing: the block holds its state (R97; notes/assumptions/7.md). -/
def idle (s : State) : Host.Outcome State Fault Refusal := configured s (.next s)

/-- The next thing that the host does, and the instance with that event taken from its ports; `none` when the host does nothing. -/
def nextEvent (s : State) : Option (HostEvent × State) :=
  match s.pending with
  | [] => none
  | e :: rest => some (e, { s with pending := rest })

/-- The instance whose host issues the command word `w` next. -/
def issueFirst (s : State) (w : CommandWord) : State := { s with pending := .command w :: s.pending }

/-! ### Status ports (R22): read-only, and reading one has no side effect (notes/assumptions/15.md) -/

/-- The value of `mode` (R13). -/
def modeValue : Mode → BitVec 1
  | .accum => 0#1
  | .ready => 1#1

/-- `STAT_MODE`. -/
def statMode (s : State) : BitVec 1 := modeValue s.blk.mode

/-- `STAT_CC`. -/
def statCC (s : State) : Nat := s.blk.cc

/-- `STAT_FLEN`. -/
def statFLen (s : State) : Nat := s.blk.flen

/-- `STAT_RDIDX`. -/
def statRdIdx (s : State) : Nat := s.blk.rdIdx

end Sys2Proof.Machine
end

