-- ==== Sys2Proof/Machine/BitCodec.lean ====
section
/-! DEFINITION. The character filter and bit expansion family (spec/40_bitcodec.md): CLR and PUSH. -/

namespace Sys2Proof.Machine

/-- CLR (R57). The cells of `pbuf` are not written (notes/assumptions/4.md). -/
def clrEffect (_cfg : Config) (blk : Block) : Except Fault Answer :=
  respond .ok false
    { blk with
      mode := .accum, cc := 0, p1 := false, rawpar := false
      t1 := false, t2 := false, flen := 0, rdIdx := 0 }

/-- PUSH `c` (R58). The checks run in the order written, and the first that applies ends the command (R89). -/
def pushEffect (c : Code) (cfg : Config) (blk : Block) : Except Fault Answer :=
  if blk.mode ≠ .accum then raise .badstate blk
  else if allowed c = false then respond .drop false { blk with rawpar := !blk.rawpar }
  else if blk.cc = cfg.maxChars then raise .full blk
  else match pbWriteBits cfg blk.pbuf (8 * blk.cc) (exp8 c) with
    | .ok cells =>
      respond .ok false
        { blk with pbuf := cells, p1 := xor blk.p1 (codeParity c), cc := blk.cc + 1, rawpar := !blk.rawpar }
    | .error f => .error f

/-- CLR (R57). -/
def execClr (s : State) : Host.Outcome State Fault Refusal := perform s clrEffect

/-- PUSH (R58). -/
def execPush (c : Code) (s : State) : Host.Outcome State Fault Refusal := perform s (pushEffect c)

end Sys2Proof.Machine
end

