-- ==== Sys2Proof/Machine/FrameBuilder.lean ====
section
/-! DEFINITION. The frame assembly family (spec/41_framebuilder.md): BUILD, and the frame it makes available. -/

namespace Sys2Proof.Machine

/-- BUILD (R66). -/
def buildEffect (cfg : Config) (blk : Block) : Except Fault Answer :=
  if blk.mode ≠ .accum then raise .badstate blk
  else if blk.cc = 0 then raise .empty blk
  else
    respond .ok false
      { blk with
        t1 := blk.p1, t2 := p2 cfg blk
        flen := cfg.ls + 8 * blk.cc + 2 + cfg.le
        rdIdx := 0, mode := .ready }

/-- BUILD (R66). -/
def execBuild (s : State) : Host.Outcome State Fault Refusal := perform s buildEffect

/-- Bit `i` of a marker. -/
def markerBit (marker : BitString) (i : Nat) : Except Fault Bit :=
  match marker[i]? with
  | some b => .ok b
  | none => .error .frameBitUndefined

/-- `FB(i)` (R68), defined in READY for `i < flen` only. -/
def frameBit (cfg : Config) (blk : Block) (i : Nat) : Except Fault Bit :=
  if blk.mode ≠ .ready ∨ blk.flen ≤ i then .error .frameBitUndefined
  else if i < cfg.ls then markerBit cfg.sm i
  else if i < cfg.ls + 8 * blk.cc then pbRead cfg blk (i - cfg.ls)
  else if i = cfg.ls + 8 * blk.cc then .ok blk.t1
  else if i = cfg.ls + 8 * blk.cc + 1 then .ok blk.t2
  else markerBit cfg.em (i - (cfg.ls + 8 * blk.cc + 2))

/-- The payload bits `pbuf[0 .. 8*cc)` (R15), less any cell that is not specified. -/
def payload (blk : Block) : BitString := (List.range (8 * blk.cc)).filterMap (cellAt blk.pbuf)

/-- The frame layout in READY (R67) as one bit string. -/
def frameOf (cfg : Config) (blk : Block) : BitString := cfg.sm ++ payload blk ++ [blk.t1, blk.t2] ++ cfg.em

end Sys2Proof.Machine
end

