-- ==== Sys2Proof/Machine/FrameOutput.lean ====
section
/-! DEFINITION. The frame read-out family (spec/42_frame_output.md): POP and REWIND. -/

namespace Sys2Proof.Machine

/-- POP (R73). -/
def popEffect (cfg : Config) (blk : Block) : Except Fault Answer :=
  if blk.mode ≠ .ready then raise .badstate blk
  else if blk.rdIdx = blk.flen then raise .drained blk
  else match frameBit cfg blk blk.rdIdx with
    | .ok b => respond .ok b { blk with rdIdx := blk.rdIdx + 1 }
    | .error f => .error f

/-- REWIND (R74). -/
def rewindEffect (_cfg : Config) (blk : Block) : Except Fault Answer :=
  if blk.mode ≠ .ready then raise .badstate blk
  else respond .ok false { blk with rdIdx := 0 }

/-- POP (R73). -/
def execPop (s : State) : Host.Outcome State Fault Refusal := perform s popEffect

/-- REWIND (R74). -/
def execRewind (s : State) : Host.Outcome State Fault Refusal := perform s rewindEffect

end Sys2Proof.Machine
end

