-- ==== Sys2Proof/Machine/Dispatch.lean ====
section
/-! DEFINITION. The dispatch: one arm per command (spec/opcode_table.json). -/

namespace Sys2Proof.Machine

def exec (i : Instr) (s : State) : Host.Outcome State Fault Refusal :=
  match i with
  -- spec/40_bitcodec.md
  | .clr => Sys2Proof.Machine.execClr s
  | .push c => Sys2Proof.Machine.execPush c s
  -- spec/41_framebuilder.md
  | .build => Sys2Proof.Machine.execBuild s
  -- spec/42_frame_output.md
  | .pop => Sys2Proof.Machine.execPop s
  | .rewind => Sys2Proof.Machine.execRewind s

end Sys2Proof.Machine
end

