-- ==== Sys2Proof/Machine/Step.lean ====
section
/-! DEFINITION. One step of the machine (spec/20_memory.md rule R38, spec/60_exceptions.md rule R98): the block does the next thing that
its host asks of it. -/

namespace Sys2Proof.Machine

/-- A command word is decoded, whatever the mode (R49), and answered as one atomic step; an illegal word is answered ILLEGAL (R46); a
reset resets (R102); with nothing asked of it the block holds its state (R97). One command is one step, without time and
without overlap (R98, R107, R111; notes/assumptions/11.md, 19.md). -/
def step (s : State) : Host.Outcome State Fault Refusal :=
  match nextEvent s with
  | none => idle s
  | some (.reset, s') => takeReset s'
  | some (.command w, s') =>
    match decode w with
    | .ok i => exec i s'
    | .error _ => execIllegal s'

/-- The instance whose host issues, before anything else, the command word that spec/opcode_table.json numbers `w`. The block stores no
program (R40), so the word stands at the head of the command port. -/
def State.withFetchWord (s : State) (nbits w : Nat) : State := issueFirst s (tableWord nbits w)

end Sys2Proof.Machine
end

