-- ==== Sys2Proof/Machine/Assembler.lean ====
section
/-! DEFINITION. The assembler syntax and the pseudo-commands (spec/30_encoding.md rules R50 and R51): reading one line of text, and the
command words that a line stands for. The spec leaves the blanks, the number of digits and a quoted `;` open: notes/assumptions/9.md. -/

namespace Sys2Proof.Machine

/-- Why the assembler refuses a line. -/
inductive AsmError where
  /-- The line names no command and no pseudo-command. -/
  | unknownMnemonic
  /-- The operand is missing or is not written in a form of R50. -/
  | badOperand
  /-- The operand is outside its range, or a character's code is above 255 (R50, R51). -/
  | outOfRange
  /-- Something other than a comment follows the command. -/
  | trailingText
  deriving DecidableEq, Repr

/-- The command words of a well-formed line (R50, R51). -/
def lineWords : AsmLine → List CommandWord
  | .blank => []
  | .clr => [encode .clr]
  | .push v => [encode (.push (BitVec.ofNat 8 v.value))]
  | .build => [encode .build]
  | .pop => [encode .pop]
  | .rewind => [encode .rewind]
  | .word w => [BitVec.ofNat 16 w]
  | .pushs text => text.map fun x => encode (.push (BitVec.ofNat 8 x.toNat))
  | .send text => encode .clr :: (text.map fun x => encode (.push (BitVec.ofNat 8 x.toNat))) ++ [encode .build]
  | .popn n => List.replicate n (encode .pop)

/-- The assembler refuses a line that is not well-formed (R50, R51). -/
def assembleLine (line : AsmLine) : Except AsmError (List CommandWord) :=
  if line.wf then .ok (lineWords line) else .error .outOfRange

/-! ### Reading a line of text -/

/-- A space or a tab. -/
def isBlankChar (c : Char) : Bool := c.toNat == 32 || c.toNat == 9

/-- `;`, which starts a comment (R50). -/
def startsComment (c : Char) : Bool := c.toNat == 59

/-- The single quote around a character. -/
def isSingleQuote (c : Char) : Bool := c.toNat == 39

/-- The double quote around a string. -/
def isDoubleQuote (c : Char) : Bool := c.toNat == 34

def skipBlanks (cs : List Char) : List Char := cs.dropWhile isBlankChar

/-- A line that is read to its end, but for blanks and a comment. -/
def finishLine (line : AsmLine) (rest : List Char) : Except AsmError AsmLine :=
  match skipBlanks rest with
  | [] => .ok line
  | c :: _ => if startsComment c then .ok line else .error .trailingText

/-- The value of a digit in base 10 or 16. -/
def digitValue (base : Nat) (c : Char) : Option Nat :=
  let n := c.toNat
  if 48 ≤ n ∧ n ≤ 57 then some (n - 48)
  else if base = 16 ∧ 65 ≤ n ∧ n ≤ 70 then some (n - 55)
  else if base = 16 ∧ 97 ≤ n ∧ n ≤ 102 then some (n - 87)
  else none

def readDigits (base : Nat) (value : Nat) : List Char → Nat × List Char
  | [] => (value, [])
  | c :: cs =>
    match digitValue base c with
    | some d => readDigits base (value * base + d) cs
    | none => (value, c :: cs)

/-- Digits in a base, at least one of them. -/
def readBase (base : Nat) : List Char → Option (Nat × List Char)
  | [] => none
  | c :: cs =>
    match digitValue base c with
    | some d => some (readDigits base d cs)
    | none => none

/-- `0xHH`: `0x` and hexadecimal digits. -/
def readHex : List Char → Option (Nat × List Char)
  | z :: x :: rest => if z.toNat = 48 ∧ x.toNat = 120 then readBase 16 rest else none
  | _ => none

/-- An `<imm8>` (R50): hexadecimal, decimal, or a quoted character. -/
def readImm8 (cs : List Char) : Option (Imm8 × List Char) :=
  match cs with
  | q :: c :: q' :: rest =>
    if isSingleQuote q && isSingleQuote q' then some (.quoted c, rest) else readNumber cs
  | _ => readNumber cs
where
  readNumber (cs : List Char) : Option (Imm8 × List Char) :=
    match readHex cs with
    | some (n, rest) => some (.number n, rest)
    | none =>
      match readBase 10 cs with
      | some (n, rest) => some (.number n, rest)
      | none => none

/-- The characters up to the closing double quote. -/
def readUntilQuote : List Char → Option (List Char × List Char)
  | [] => none
  | c :: cs =>
    if isDoubleQuote c then some ([], cs)
    else match readUntilQuote cs with
      | some (text, rest) => some (c :: text, rest)
      | none => none

/-- A string between double quotes (R51). -/
def readText : List Char → Option (List Char × List Char)
  | [] => none
  | c :: cs => if isDoubleQuote c then readUntilQuote cs else none

/-- A line with an operand: the operand is read, and the line ends after it. -/
def withReadOperand {α : Type} (read : List Char → Option (α × List Char)) (make : α → AsmLine) (cs : List Char) :
    Except AsmError AsmLine :=
  match read (skipBlanks cs) with
  | some (v, rest) => finishLine (make v) rest
  | none => .error .badOperand

/-- The operand of a mnemonic, and the rest of its line. -/
def parseAfterName (name rest : List Char) : Except AsmError AsmLine :=
  if name = ['C', 'L', 'R'] then finishLine .clr rest
  else if name = ['P', 'U', 'S', 'H'] then withReadOperand readImm8 .push rest
  else if name = ['B', 'U', 'I', 'L', 'D'] then finishLine .build rest
  else if name = ['P', 'O', 'P'] then finishLine .pop rest
  else if name = ['R', 'E', 'W', 'I', 'N', 'D'] then finishLine .rewind rest
  else if name = ['.', 'w', 'o', 'r', 'd'] then withReadOperand readHex .word rest
  else if name = ['P', 'U', 'S', 'H', 'S'] then withReadOperand readText .pushs rest
  else if name = ['S', 'E', 'N', 'D'] then withReadOperand readText .send rest
  else if name = ['P', 'O', 'P', 'N'] then withReadOperand (readBase 10) .popn rest
  else .error .unknownMnemonic

/-- One line of text: at most one command, then perhaps a comment (R50). -/
def parseLine (cs : List Char) : Except AsmError AsmLine :=
  match skipBlanks cs with
  | [] => .ok .blank
  | c :: rest =>
    if startsComment c then .ok .blank
    else
      let endsName := fun x => isBlankChar x || startsComment x
      parseAfterName ((c :: rest).takeWhile fun x => !endsName x) ((c :: rest).dropWhile fun x => !endsName x)

/-- The command words of a program's lines, in order. -/
def assemble : List (List Char) → Except AsmError (List CommandWord)
  | [] => .ok []
  | cs :: lines =>
    match parseLine cs with
    | .error e => .error e
    | .ok line =>
      match assembleLine line, assemble lines with
      | .ok ws, .ok rest => .ok (ws ++ rest)
      | .error e, _ => .error e
      | _, .error e => .error e

end Sys2Proof.Machine
end

