-- ==== Sys2Proof/Machine/Reference.lean ====
section
/-! DEFINITION. The reference functions (spec/00_scope.md rule R11): `FILTER`, `ENCODE_REF` and `ACC` (R56), `P1_REF` (R65), `P2_REF` (R64),
`FRAME_REF` (R63), and the reference receiver `DECODE_REF`, `SCAN_REF` and `CHECK` (R80 to R82). They are pure functions with no state; no
step of the machine calls one. -/

namespace Sys2Proof.Machine

/-! ### What the block is to send -/

/-- `FILTER(t)` (R56). -/
def filterAllowed (t : List Code) : List Code := t.filter allowed

/-- `ENCODE_REF(t)` (R56). -/
def encodeRef (t : List Code) : BitString := (filterAllowed t).flatMap exp8

/-- `ACC(t)` (R56). -/
def acc (t : List Code) : Nat := (filterAllowed t).length

/-- `P1_REF(t)` (R65): the number of 1 bits in the payload, mod 2. -/
def p1Ref (t : List Code) : Bit := (encodeRef t).count true % 2 == 1

/-- `P2_REF(t)` (R64). -/
def p2Ref (cfg : Config) (t : List Code) : Bit :=
  match cfg.p2Source with
  | .accepted => countParity (acc t)
  | .pushed => countParity t.length

/-- `FRAME_REF(cfg, t)` (R63); for `ACC(t) = 0` it is undefined: no frame is built (R71). -/
def frameRef (cfg : Config) (t : List Code) : Option BitString :=
  if acc t = 0 then none
  else some (cfg.sm ++ encodeRef t ++ [p1Ref t, p2Ref cfg t] ++ cfg.em)

/-! ### The reference receiver -/

/-- The one failure of `DECODE_REF` (R80). -/
inductive DecodeFailure where
  | malformedPayload
  deriving DecidableEq, Repr

/-- The outcomes of `SCAN_REF` (R81, R83). -/
inductive ScanResult where
  | pending
  | invalid
  | decoded (d : List Code)
  deriving DecidableEq, Repr

/-- The code of one chunk of 8 bits, most significant first (R80). -/
def chunkCode (b0 b1 b2 b3 b4 b5 b6 b7 : Bit) : Code :=
  BitVec.ofNat 8 (b0.toNat * 128 + b1.toNat * 64 + b2.toNat * 32 + b3.toNat * 16 + b4.toNat * 8 + b5.toNat * 4 +
    b6.toNat * 2 + b7.toNat)

/-- The codes of the chunks `p[8k .. 8k+8)` (R80). -/
def chunkCodes : BitString → List Code
  | b0 :: b1 :: b2 :: b3 :: b4 :: b5 :: b6 :: b7 :: rest => chunkCode b0 b1 b2 b3 b4 b5 b6 b7 :: chunkCodes rest
  | _ => []

/-- `DECODE_REF(p)` (R80). -/
def decodeRef (p : BitString) : Except DecodeFailure (List Code) :=
  if p.length % 8 ≠ 0 then .error .malformedPayload else .ok (chunkCodes p)

/-- `r[i .. i+|m|) = m`. -/
def occursAt (m r : BitString) (i : Nat) : Bool := (r.drop i).take m.length == m

/-- The largest index at which `m` occurs in `r` (R81); occurrences may overlap. -/
def lastOccurrence (m r : BitString) : Option Nat := (List.range (r.length + 1)).reverse.find? fun i => occursAt m r i

/-- `CHECK(pay, par)` (R82). -/
def checkRef (pay par : BitString) : ScanResult :=
  if pay.length % 8 = 0 ∧ 8 ≤ pay.length ∧ par = [pay.count true % 2 == 1, countParity (pay.length / 8)] then
    match decodeRef pay with
    | .ok d => .decoded d
    | .error _ => .invalid
  else .invalid

/-- `SCAN_REF(cfg, r)` (R81). -/
def scanRef (cfg : Config) (r : BitString) : ScanResult :=
  match lastOccurrence cfg.sm r with
  | none => .pending
  | some i =>
    let u := r.drop (i + cfg.ls)
    match lastOccurrence cfg.em u with
    | none => .pending
    | some j => if j < 2 then .invalid else checkRef (u.take (j - 2)) ((u.drop (j - 2)).take 2)

end Sys2Proof.Machine
end

