-- ==== Sys2Proof/Machine/HostSide.lean ====
section
/-! DEFINITION. What the spec says of the host and of the downstream transmitter where they meet the block (spec/60_exceptions.md rules R98
to R101, spec/40_bitcodec.md rule R62, spec/42_frame_output.md rules R76 and R77, spec/70_reset_and_hazards.md rules R108 and R109). No
step of the block calls any of it (notes/assumptions/20.md, 21.md, 23.md). -/

namespace Sys2Proof.Machine

/-- The code that the host passes for a character of its text (R62, R99): the character's own code where it fits in 8 bits, and otherwise
the disallowed code 0x00, never its low 8 bits. -/
def hostCode (character : Nat) : Code := if character ≤ 255 then BitVec.ofNat 8 character else 0x00#8

/-- One PUSH for each code, in text order (R99). -/
def pushWords (t : List Code) : List CommandWord := t.map fun c => encode (.push c)

/-- The commands that frame a message (R108): CLR, the PUSHes, BUILD. -/
def messageWords (t : List Code) : List CommandWord := encode .clr :: pushWords t ++ [encode .build]

/-- `n` POPs. -/
def popWords (n : Nat) : List CommandWord := List.replicate n (encode .pop)

/-- The commands with which a transmitter sends a frame of `flen` bits `cycles` times (R77): `flen` POPs, then for each further cycle one
REWIND and `flen` more POPs. -/
def transmitWords (flen : Nat) : Nat → List CommandWord
  | 0 => []
  | further + 1 => popWords flen ++ (List.replicate further (encode .rewind :: popWords flen)).flatten

/-- The state to which a transmitter sets its output device for a frame bit (R76): on for 1, off for 0. -/
def deviceOn (b : Bit) : Bool := b

/-- `resp[3:0]` (R47). -/
def respCodeField (r : ResponseWord) : BitVec 4 := r.extractLsb' 0 4

/-- `resp[4]` (R47). -/
def respBitField (r : ResponseWord) : Bit := r.getLsbD 4

/-- The frame bit that a response to a POP carries (R109): none unless its code is OK. -/
def frameBitOf (r : ResponseWord) : Option Bit := if respCodeField r = codeValue .ok then some (respBitField r) else none

/-- The bits out of a conversation: the frame bits of the responses to its POPs, in order (R109, spec/95_test_vectors.md section L3). -/
def bitsOut : List CommandWord → List ResponseWord → BitString
  | w :: ws, r :: rs => (if w = encode .pop then (frameBitOf r).toList else []) ++ bitsOut ws rs
  | _, _ => []

/-- A host that issues the command words `ws` one at a time, each after the response to the one before (R98): the responses it gets, in
order, and the instance after the last of them. -/
def converse : List CommandWord → State → Host.Outcome (List ResponseWord × State) Fault Refusal
  | [], s => .next ([], s)
  | w :: ws, s =>
    match step (issueFirst s w) with
    | .fault f => .fault f
    | .refused r => .refused r
    | .next t =>
      match converse ws t with
      | .fault f => .fault f
      | .refused r => .refused r
      | .next (rs, u) => .next (t.resp.toList ++ rs, u)

end Sys2Proof.Machine
end

