-- ==== Sys2Proof/Safety.lean ====
section
/-! DEFINITION. What a good state is, in the terms that the statements use: the invariants of spec/10_state.md rules R25 and R26, with the
facts about the payload buffer on which they rest (spec/20_memory.md rules R29 to R31, spec/40_bitcodec.md rule R61). -/

namespace Sys2Proof.Machine

/-- The code that the payload holds for the accepted character `k` (R30): its cells are `8k .. 8k+7`, most significant bit first. -/
def holdsCode (blk : Block) (k : Nat) (c : Code) : Prop :=
  ∀ j < 8, cellAt blk.pbuf (8 * k + j) = some (codeBit c (7 - j))

/-- What holds of the payload in both modes. -/
structure Block.PayloadInv (cfg : Config) (blk : Block) : Prop where
  /-- The buffer is in its canonical form. -/
  canonical : PayloadBuffer.wf blk.pbuf
  /-- It lists only cells that exist (R29). -/
  cellsExist : ∀ e ∈ blk.pbuf, e.1 < cfg.cells
  /-- `cc <= MAX_CHARS` (R16, R25, R26). -/
  fits : blk.cc ≤ cfg.maxChars
  /-- The cells `0 .. 8*cc - 1` hold the codes of `cc` allowed characters (R15, R30, R61). -/
  characters : ∀ k < blk.cc, ∃ c, allowed c = true ∧ holdsCode blk k c
  /-- `p1 = xor(pbuf[0 .. 8*cc))` (R17, R25, R26). -/
  parityKept : blk.p1 = parity (payload blk)

/-- What R25 says of ACCUM beside the payload, and R19: the trailer is 0 until BUILD latches it. -/
structure Block.AccumInv (blk : Block) : Prop where
  noFrame : blk.flen = 0
  notReading : blk.rdIdx = 0
  t1Clear : blk.t1 = false
  t2Clear : blk.t2 = false

/-- What R26 says of READY beside the payload. -/
structure Block.ReadyInv (cfg : Config) (blk : Block) : Prop where
  notEmpty : 1 ≤ blk.cc
  frameLength : blk.flen = cfg.ls + 8 * blk.cc + 2 + cfg.le
  inFrame : blk.rdIdx ≤ blk.flen
  trailer1 : blk.t1 = blk.p1
  trailer2 : blk.t2 = p2 cfg blk

/-- The invariant of the block under a configuration (R25, R26). -/
structure Block.Inv (cfg : Config) (blk : Block) : Prop where
  payload : Block.PayloadInv cfg blk
  accum : blk.mode = .accum → Block.AccumInv blk
  ready : blk.mode = .ready → Block.ReadyInv cfg blk

/-- The invariant of an instance: its configuration is well-formed (R6) and its block is good. -/
structure State.Inv (s : State) : Prop where
  cfgWf : s.cfg.wf = true
  block : Block.Inv s.cfg s.blk

/-- A step that neither faults nor is refused. -/
def goesOn {σ : Type} (o : Host.Outcome σ Fault Refusal) : Prop := ∃ t, o = .next t

/-- Two blocks agree when every field but `pbuf` has the same value and every specified cell of the payload, `0 .. 8*cc - 1`, holds the
same bit. The cells above hold unspecified values in both (R15, R31), so no command can tell the two apart. -/
structure Block.Agree (a b : Block) : Prop where
  mode : a.mode = b.mode
  cc : a.cc = b.cc
  p1 : a.p1 = b.p1
  rawpar : a.rawpar = b.rawpar
  t1 : a.t1 = b.t1
  t2 : a.t2 = b.t2
  flen : a.flen = b.flen
  rdIdx : a.rdIdx = b.rdIdx
  cells : ∀ i < 8 * a.cc, cellAt a.pbuf i = cellAt b.pbuf i

/-- What R59 says of the block after CLR or reset and one PUSH for each code of `t`, when these answered `rs`: it holds the encoded
message, cut after its first `MAX_CHARS` accepted codes, and `rawpar` counts the codes answered OK or DROP. -/
structure Block.HoldsMessage (cfg : Config) (t : List Code) (rs : List ResponseWord) (blk : Block) : Prop where
  mode : blk.mode = .accum
  cc : blk.cc = min (acc t) cfg.maxChars
  payload : payload blk = ((filterAllowed t).take cfg.maxChars).flatMap exp8
  p1 : blk.p1 = ((((filterAllowed t).take cfg.maxChars).flatMap exp8).count true % 2 == 1)
  rawpar : blk.rawpar =
    ((rs.filter fun r => r == responseWord .ok false || r == responseWord .drop false).length % 2 == 1)

end Sys2Proof.Machine
end

