-- ==== Sys2Proof/Certificates/Slice0/Obligations.lean ====
section
/-! DEFINITION. The statements for the provers. They are stated for every configuration, except those that spec/45_reference_receiver.md
makes about `REFCFG` alone, and none rests on the configuration that `State.reset` happens to hold (notes/assumptions/2.md). -/

open Sys2Proof Sys2Proof.Machine

/-! ### Encoding -/

/-- R52: the examples, in both directions; the illegal words are refused, each by the name of what is wrong with it. -/
def Obligations.SampleWordsDecodeAsWritten : Prop :=
  (encode .clr = 0x1000#16 ∧ decode 0x1000#16 = .ok .clr) ∧
  (encode (.push 0x41#8) = 0x2041#16 ∧ decode 0x2041#16 = .ok (.push 0x41#8)) ∧
  (encode (.push 0x7A#8) = 0x207A#16 ∧ decode 0x207A#16 = .ok (.push 0x7A#8)) ∧
  (encode (.push 0x2D#8) = 0x202D#16 ∧ decode 0x202D#16 = .ok (.push 0x2D#8)) ∧
  (encode .build = 0x3000#16 ∧ decode 0x3000#16 = .ok .build) ∧
  (encode .pop = 0x4000#16 ∧ decode 0x4000#16 = .ok .pop) ∧
  (encode .rewind = 0x5000#16 ∧ decode 0x5000#16 = .ok .rewind) ∧
  decode 0x0000#16 = .error .reservedOp ∧ decode 0x6000#16 = .error .reservedOp ∧
  decode 0x1100#16 = .error .reservedBits ∧ decode 0x3001#16 = .error .dataNotZero

/-- R45: which words decode, said by the fields, by the words themselves and by the match/mask pairs; and there are 260 of them. -/
def Obligations.ExactlyTheLegalWordsDecode : Prop :=
  (∀ w, (∃ i, decode w = .ok i) ↔
    (1 ≤ (opField w).toNat ∧ (opField w).toNat ≤ 5) ∧ rsvField w = 0#4 ∧ (opField w = 0x2#4 ∨ dataField w = 0#8)) ∧
  (∀ w, decode w = .ok .clr ↔ w = 0x1000#16) ∧
  (∀ w, (∃ c, decode w = .ok (.push c)) ↔ 0x2000 ≤ w.toNat ∧ w.toNat ≤ 0x20FF) ∧
  (∀ w c, decode w = .ok (.push c) → c = dataField w) ∧
  (∀ w, decode w = .ok .build ↔ w = 0x3000#16) ∧
  (∀ w, decode w = .ok .pop ↔ w = 0x4000#16) ∧
  (∀ w, decode w = .ok .rewind ↔ w = 0x5000#16) ∧
  (∀ w, decode w = .ok .clr ↔ w &&& 0xFFFF#16 = 0x1000#16) ∧
  (∀ w, (∃ c, decode w = .ok (.push c)) ↔ w &&& 0xFF00#16 = 0x2000#16) ∧
  (∀ w, decode w = .ok .build ↔ w &&& 0xFFFF#16 = 0x3000#16) ∧
  (∀ w, decode w = .ok .pop ↔ w &&& 0xFFFF#16 = 0x4000#16) ∧
  (∀ w, decode w = .ok .rewind ↔ w &&& 0xFFFF#16 = 0x5000#16) ∧
  (∃ ws : List CommandWord, ws.Nodup ∧ ws.length = 260 ∧ ∀ w, w ∈ ws ↔ ∃ i, decode w = .ok i)

/-- Decoding and encoding agree in both directions: each command has one word, and each legal word one meaning. -/
def Obligations.DecodeAndEncodeAgree : Prop :=
  ∀ (w : CommandWord) (i : Instr), decode w = .ok i ↔ w = encode i

/-- R46: every word that is not legal is answered ILLEGAL with output bit 0, in any mode, and changes no state. -/
def Obligations.IllegalWordChangesNothing : Prop :=
  ∀ (s : State) (w : CommandWord) (rest : List HostEvent), s.cfg.wf = true → s.pending = .command w :: rest →
    ((¬ ∃ i, decode w = .ok i) ∨ (opField w).toNat = 0 ∨ 6 ≤ (opField w).toNat ∨ rsvField w ≠ 0#4 ∨
      (opField w ≠ 0x2#4 ∧ dataField w ≠ 0#8) ∨ w = 0x0000#16) →
      step s = .next { s with pending := rest, resp := some 0x06#8 }

/-- A step runs the decoded command: exactly `exec` of it, on the instance whose command port no longer holds the word; and a word that
the host places first is the word that runs. How words come to the block is the model's choice (notes/assumptions/6.md, 16.md). -/
def Obligations.StepRunsTheDecodedCommand : Prop :=
  (∀ (s : State) (w : CommandWord) (rest : List HostEvent) (i : Instr),
    s.pending = .command w :: rest → decode w = .ok i → step s = exec i { s with pending := rest }) ∧
  (∀ (s : State) (w : CommandWord) (i : Instr), decode w = .ok i → step (s.withFetchWord 16 w.toNat) = exec i s)

/-! ### Responses -/

/-- R47: every command word, legal or not, gets exactly one response: `resp[3:0]` is a code, `resp[7:5]` is 0, and `resp[4]` is the frame
bit for a POP answering OK and 0 otherwise. -/
def Obligations.EveryCommandGetsOneResponse : Prop :=
  ∀ (s : State) (w : CommandWord) (rest : List HostEvent), s.Inv → s.pending = .command w :: rest →
    ∃ t code r, step s = .next t ∧ t.pending = rest ∧ t.resp = some r ∧
      r.extractLsb' 0 4 = codeValue code ∧ r.extractLsb' 5 3 = 0#3 ∧
      (decode w = .ok .pop → code = .ok → frameBit s.cfg s.blk s.blk.rdIdx = .ok (r.getLsbD 4)) ∧
      (¬ (decode w = .ok .pop ∧ code = .ok) → r.getLsbD 4 = false)

/-- Which codes each command can answer (the table of R48). -/
def Obligations.CommandsAnswerOnlyTheirCodes : Prop :=
  ∀ (i : Instr) (s t : State), exec i s = .next t → ∃ code bit, t.resp = some (responseWord code bit) ∧
    (i = .clr → code = .ok) ∧
    (∀ c, i = .push c → code = .ok ∨ code = .drop ∨ code = .full ∨ code = .badstate) ∧
    (i = .build → code = .ok ∨ code = .empty ∨ code = .badstate) ∧
    (i = .pop → code = .ok ∨ code = .badstate ∨ code = .drained) ∧
    (i = .rewind → code = .ok ∨ code = .badstate)

/-- R88: a command that answers an error code writes no state field and no `pbuf` cell, and its response bit is 0; the response is the
only record of the error. -/
def Obligations.ErrorsAreTheOnlyRecordOfThemselves : Prop :=
  (∀ (s t : State) (w : CommandWord) (rest : List HostEvent) (code : RespCode) (bit : Bit),
    s.pending = .command w :: rest → step s = .next t → t.resp = some (responseWord code bit) → isError code = true →
      bit = false ∧ t = { s with pending := rest, resp := some (responseWord code false) }) ∧
  (∀ code blk, raise code blk = respond code false blk ∧ raise code blk = .ok ⟨blk, code, false⟩)

/-- R89 and R90: the cause of each response code, exactly, and so which of several applicable ones is answered; and what each records. -/
def Obligations.EachCodeHasExactlyItsCause : Prop :=
  ∀ (s : State) (w : CommandWord) (rest : List HostEvent), s.Inv → s.pending = .command w :: rest →
    ∃ t code bit, step s = .next t ∧ t.resp = some (responseWord code bit) ∧
      (code = .illegal ↔ ¬ ∃ i, decode w = .ok i) ∧
      (code = .badstate ↔
        (s.blk.mode = .ready ∧ ((∃ c, decode w = .ok (.push c)) ∨ decode w = .ok .build)) ∨
        (s.blk.mode = .accum ∧ (decode w = .ok .pop ∨ decode w = .ok .rewind))) ∧
      (code = .drop ↔ s.blk.mode = .accum ∧ ∃ c, decode w = .ok (.push c) ∧ allowed c = false) ∧
      (code = .full ↔ s.blk.mode = .accum ∧ ∃ c, decode w = .ok (.push c) ∧ allowed c = true ∧ s.blk.cc = s.cfg.maxChars) ∧
      (code = .empty ↔ s.blk.mode = .accum ∧ decode w = .ok .build ∧ s.blk.cc = 0) ∧
      (code = .drained ↔ s.blk.mode = .ready ∧ decode w = .ok .pop ∧ s.blk.rdIdx = s.blk.flen) ∧
      (decode w = .ok .clr → code = .ok) ∧
      (code = .drop → t.blk = { s.blk with rawpar := !s.blk.rawpar }) ∧
      (code ≠ .ok → code ≠ .drop → t.blk = s.blk)

/-! ### What each command does -/

/-- R57: CLR, whole: it always answers OK, in both modes, and writes exactly its fields; the cells of `pbuf` are not written. -/
def Obligations.ClrStartsAFreshMessage : Prop :=
  encode .clr = 0x1000#16 ∧
  ∀ s : State, s.cfg.wf = true →
    exec .clr s = .next { s with
      blk := { s.blk with
        mode := .accum, cc := 0, p1 := false, rawpar := false
        t1 := false, t2 := false, flen := 0, rdIdx := 0 }
      resp := some 0x00#8 }

/-- R58: PUSH, whole, on every path. Where it stores, the eight cells from `8*cc` on hold the code's bits, most significant first, and
every other cell reads as before. -/
def Obligations.PushFiltersExpandsAndAccumulates : Prop :=
  (∀ c : Code, (encode (.push c)).toNat = 0x2000 + c.toNat) ∧
  ∀ (s : State) (c : Code), s.cfg.wf = true →
    (s.blk.mode = .ready → exec (.push c) s = .next { s with resp := some 0x04#8 }) ∧
    (s.blk.mode = .accum → allowed c = false →
      exec (.push c) s = .next { s with blk := { s.blk with rawpar := !s.blk.rawpar }, resp := some 0x01#8 }) ∧
    (s.blk.mode = .accum → allowed c = true → s.blk.cc = s.cfg.maxChars →
      exec (.push c) s = .next { s with resp := some 0x02#8 }) ∧
    (s.blk.mode = .accum → allowed c = true → s.blk.cc < s.cfg.maxChars →
      ∃ cells,
        exec (.push c) s = .next { s with
          blk := { s.blk with
            pbuf := cells, p1 := xor s.blk.p1 (popcount c % 2 == 1), cc := s.blk.cc + 1, rawpar := !s.blk.rawpar }
          resp := some 0x00#8 } ∧
        (∀ j < 8, cellAt cells (8 * s.blk.cc + j) = some (codeBit c (7 - j))) ∧
        (∀ k, k < 8 * s.blk.cc ∨ 8 * s.blk.cc + 8 ≤ k → cellAt cells k = cellAt s.blk.pbuf k))

/-- R66: BUILD, whole, on every path. -/
def Obligations.BuildLatchesTheTrailerAndTheFrame : Prop :=
  encode .build = 0x3000#16 ∧
  ∀ s : State, s.cfg.wf = true →
    (s.blk.mode = .ready → exec .build s = .next { s with resp := some 0x04#8 }) ∧
    (s.blk.mode = .accum → s.blk.cc = 0 → exec .build s = .next { s with resp := some 0x03#8 }) ∧
    (s.blk.mode = .accum → s.blk.cc ≠ 0 →
      exec .build s = .next { s with
        blk := { s.blk with
          t1 := s.blk.p1
          t2 := if s.cfg.p2Source = .accepted then s.blk.cc % 2 == 1 else s.blk.rawpar
          flen := s.cfg.ls + 8 * s.blk.cc + 2 + s.cfg.le, rdIdx := 0, mode := .ready }
        resp := some 0x00#8 })

/-- R73: POP, whole, on every path; the bit it answers is bit `rd_idx` of the frame of R67, and only `rd_idx` moves. -/
def Obligations.PopAnswersTheNextFrameBit : Prop :=
  encode .pop = 0x4000#16 ∧
  ∀ s : State, s.cfg.wf = true →
    (s.blk.mode = .accum → exec .pop s = .next { s with resp := some 0x04#8 }) ∧
    (s.blk.mode = .ready → s.blk.rdIdx = s.blk.flen → exec .pop s = .next { s with resp := some 0x05#8 }) ∧
    (s.blk.Inv s.cfg → s.blk.mode = .ready → s.blk.rdIdx < s.blk.flen →
      ∃ b, frameBit s.cfg s.blk s.blk.rdIdx = .ok b ∧ (frameOf s.cfg s.blk)[s.blk.rdIdx]? = some b ∧
        exec .pop s = .next { s with
          blk := { s.blk with rdIdx := s.blk.rdIdx + 1 }, resp := some (if b then 0x10#8 else 0x00#8) })

/-- R74: REWIND, whole, on every path. -/
def Obligations.RewindRestartsTheFrame : Prop :=
  encode .rewind = 0x5000#16 ∧
  ∀ s : State, s.cfg.wf = true →
    (s.blk.mode = .accum → exec .rewind s = .next { s with resp := some 0x04#8 }) ∧
    (s.blk.mode = .ready →
      exec .rewind s = .next { s with blk := { s.blk with rdIdx := 0 }, resp := some 0x00#8 })

/-! ### Which commands write which state -/

/-- R14: `mode` is written only by CLR, by BUILD when it completes with OK, and by reset; and a command that does not act in the current
mode answers BADSTATE. -/
def Obligations.ModeHasThreeWriters : Prop :=
  (∀ s t : State, step s = .next t → t.blk.mode ≠ s.blk.mode →
    (∃ rest, s.pending = .reset :: rest ∧ t.blk.mode = .accum) ∨
    (∃ w rest, s.pending = .command w :: rest ∧
      ((decode w = .ok .clr ∧ t.blk.mode = .accum) ∨
       (decode w = .ok .build ∧ t.resp = some (responseWord .ok false) ∧ t.blk.mode = .ready)))) ∧
  (∀ s : State, s.cfg.wf = true → s.blk.mode = .ready → ∀ i, i = .build ∨ (∃ c, i = .push c) →
    exec i s = .next { s with resp := some (responseWord .badstate false) }) ∧
  (∀ s : State, s.cfg.wf = true → s.blk.mode = .accum → ∀ i, i = .pop ∨ i = .rewind →
    exec i s = .next { s with resp := some (responseWord .badstate false) })

/-- The cells of `pbuf` change only in a PUSH that answers OK, and then only the eight from `8*cc` on (R15, R29, R35): for every other
step, the reset among them, every cell is as before (for the cells from `8*cc` on after a CLR or a reset: notes/assumptions/4.md). -/
def Obligations.OnlyAStoringPushWritesTheBuffer : Prop :=
  ∀ s t : State, step s = .next t →
    (∀ k, cellAt t.blk.pbuf k = cellAt s.blk.pbuf k) ∨
    (∃ w rest c, s.pending = .command w :: rest ∧ decode w = .ok (.push c) ∧ t.resp = some (responseWord .ok false) ∧
      (∀ k, k < 8 * s.blk.cc ∨ 8 * s.blk.cc + 8 ≤ k → cellAt t.blk.pbuf k = cellAt s.blk.pbuf k))

/-- The accumulating fields `cc`, `p1` and `rawpar` move only as R16, R17 and R18 say, over all commands and reset. -/
def Obligations.AccumulatorsMoveOnlyAsTheirRulesSay : Prop :=
  (∀ (i : Instr) (s t : State), exec i s = .next t →
    (i = .clr → t.blk.cc = 0 ∧ t.blk.p1 = false ∧ t.blk.rawpar = false) ∧
    (∀ c, i = .push c → t.resp = some (responseWord .ok false) →
      t.blk.cc = s.blk.cc + 1 ∧ t.blk.p1 = xor s.blk.p1 (popcount c % 2 == 1) ∧ t.blk.rawpar = !s.blk.rawpar) ∧
    (∀ c, i = .push c → t.resp = some (responseWord .drop false) →
      t.blk.cc = s.blk.cc ∧ t.blk.p1 = s.blk.p1 ∧ t.blk.rawpar = !s.blk.rawpar) ∧
    (i ≠ .clr → (∀ c, i = .push c → t.resp ≠ some (responseWord .ok false) ∧ t.resp ≠ some (responseWord .drop false)) →
      t.blk.cc = s.blk.cc ∧ t.blk.p1 = s.blk.p1 ∧ t.blk.rawpar = s.blk.rawpar)) ∧
  (∀ s t : State, takeReset s = .next t → t.blk.cc = 0 ∧ t.blk.p1 = false ∧ t.blk.rawpar = false)

/-- The frame fields `t1`, `t2`, `flen` and `rd_idx` move only as R19, R20 and R21 say, over all commands and reset. -/
def Obligations.FrameFieldsMoveOnlyAsTheirRulesSay : Prop :=
  (∀ (i : Instr) (s t : State), exec i s = .next t →
    (i = .clr → t.blk.t1 = false ∧ t.blk.t2 = false ∧ t.blk.flen = 0 ∧ t.blk.rdIdx = 0) ∧
    (i = .build → t.resp = some (responseWord .ok false) →
      t.blk.t1 = s.blk.p1 ∧ t.blk.t2 = p2 s.cfg s.blk ∧ t.blk.flen = s.cfg.ls + 8 * s.blk.cc + 2 + s.cfg.le ∧
      t.blk.rdIdx = 0) ∧
    (i = .pop → (∃ b, t.resp = some (responseWord .ok b)) → t.blk.rdIdx = s.blk.rdIdx + 1) ∧
    (i = .rewind → t.resp = some (responseWord .ok false) → t.blk.rdIdx = 0) ∧
    (i ≠ .clr → (i = .build → t.resp ≠ some (responseWord .ok false)) →
      t.blk.t1 = s.blk.t1 ∧ t.blk.t2 = s.blk.t2 ∧ t.blk.flen = s.blk.flen) ∧
    ((∃ c, i = .push c) ∨ (∃ code, t.resp = some (responseWord code false) ∧ isError code = true) →
      t.blk.rdIdx = s.blk.rdIdx)) ∧
  (∀ s t : State, takeReset s = .next t →
    t.blk.t1 = false ∧ t.blk.t2 = false ∧ t.blk.flen = 0 ∧ t.blk.rdIdx = 0)

/-- The configuration is no state: no step writes it (R12, R106). That a state carries it is the model's choice
(notes/assumptions/1.md). -/
def Obligations.NoStepWritesTheConfiguration : Prop :=
  ∀ s t : State, step s = .next t → t.cfg = s.cfg

/-- R6: when a configuration is well-formed; and under one that is not, every step and every command is refused. -/
def Obligations.IllFormedConfigurationIsRefused : Prop :=
  (∀ cfg : Config, cfg.wf = true ↔
    (8 ≤ cfg.sm.length ∧ 8 ≤ cfg.em.length) ∧ cfg.sm ≠ cfg.em ∧
      (¬ cfg.sm <+: cfg.em ∧ ¬ cfg.em <+: cfg.sm) ∧ 1 ≤ cfg.maxChars) ∧
  (∀ s : State, s.cfg.wf = false →
    step s = .refused .illFormedConfig ∧ ∀ i, exec i s = .refused .illFormedConfig)

/-! ### Reset -/

/-- R102: reset puts every state field at its reset value, whatever state it finds; no response is pending after it; every cell of `pbuf`
is left unspecified, so that reading it gives no value. -/
def Obligations.ResetPutsEveryFieldAtItsResetValue : Prop :=
  ∀ (s : State) (rest : List HostEvent), s.cfg.wf = true → s.pending = .reset :: rest →
    ∃ t, step s = .next t ∧ t.pending = rest ∧ t.cfg = s.cfg ∧ t.resp = none ∧
      t.blk.mode = .accum ∧ t.blk.cc = 0 ∧ t.blk.p1 = false ∧ t.blk.rawpar = false ∧ t.blk.t1 = false ∧ t.blk.t2 = false ∧
      t.blk.flen = 0 ∧ t.blk.rdIdx = 0 ∧ ∀ k b, pbRead t.cfg t.blk k ≠ .ok b

/-- R27: the values right after reset, for an instance of any configuration. -/
def Obligations.TheResetStateHoldsTheResetValues : Prop :=
  ∀ cfg : Config,
    let s := State.resetWith cfg
    s.cfg = cfg ∧ s.resp = none ∧ s.blk.mode = .accum ∧ s.blk.cc = 0 ∧ s.blk.p1 = false ∧ s.blk.rawpar = false ∧
      s.blk.t1 = false ∧ s.blk.t2 = false ∧ s.blk.flen = 0 ∧ s.blk.rdIdx = 0 ∧
      statMode s = 0#1 ∧ statCC s = 0 ∧ statFLen s = 0 ∧ statRdIdx s = 0 ∧ ∀ k b, pbRead s.cfg s.blk k ≠ .ok b

/-- R103: reset and CLR leave the same state from any state; the only difference is that reset returns no response. -/
def Obligations.ResetAndClrLeaveTheSameState : Prop :=
  ∀ s : State, s.cfg.wf = true →
    ∃ a b, takeReset s = .next a ∧ exec .clr s = .next b ∧ a.blk.Agree b.blk ∧ a.cfg = b.cfg ∧ a.pending = b.pending ∧
      (∀ k c, pbRead a.cfg a.blk k ≠ .ok c) ∧ (∀ k c, pbRead b.cfg b.blk k ≠ .ok c) ∧
      a.resp = none ∧ b.resp = some 0x00#8

/-- R104: a command in flight when reset comes may have taken effect or not; reset overwrites every field either way, so the two outcomes
agree, and a CLR after it changes nothing. The two outcomes are two inputs of the model (notes/assumptions/10.md). -/
def Obligations.ResetHidesTheCommandInFlight : Prop :=
  ∀ (s : State) (w : CommandWord) (rest : List HostEvent), s.Inv → s.pending = .command w :: .reset :: rest →
    ∃ mid taken notTaken,
      step s = .next mid ∧ step mid = .next taken ∧ step { s with pending := .reset :: rest } = .next notTaken ∧
      taken.blk.Agree notTaken.blk ∧ taken.resp = none ∧ notTaken.resp = none ∧ taken.pending = notTaken.pending ∧
      taken.cfg = notTaken.cfg ∧
      ∃ cleared, exec .clr taken = .next cleared ∧ cleared.blk.Agree taken.blk

/-! ### Invariants -/

/-- The invariant holds right after reset, under every well-formed configuration (R25). -/
def Obligations.ResetStateIsGood : Prop :=
  ∀ cfg : Config, cfg.wf = true → (State.resetWith cfg).Inv

/-- R25 and R26: every step keeps the invariant, from every state that has it. -/
def Obligations.EveryStepKeepsTheInvariant : Prop :=
  ∀ s t : State, s.Inv → step s = .next t → t.Inv

/-- From a good state a step never faults and is never refused: whatever the host does, the block takes it. -/
def Obligations.GoodStatesAlwaysGoOn : Prop :=
  ∀ s : State, s.Inv → goesOn (step s)

/-- R71: a step never ends in READY with an empty payload, and BUILD of one answers EMPTY. -/
def Obligations.NoFrameIsBuiltOfAnEmptyPayload : Prop :=
  (∀ s t : State, s.Inv → step s = .next t → t.blk.mode = .ready → t.blk.cc ≠ 0 ∧ 8 ≤ (payload t.blk).length) ∧
  (∀ s : State, s.cfg.wf = true → s.blk.mode = .accum → s.blk.cc = 0 →
    exec .build s = .next { s with resp := some (responseWord .empty false) })

/-- R70: the length of a frame. -/
def Obligations.FrameLengthsAreBounded : Prop :=
  (∀ s : State, s.Inv → s.blk.mode = .ready →
    s.blk.flen = s.cfg.ls + s.cfg.le + 2 + 8 * s.blk.cc ∧ 1 ≤ s.blk.cc ∧
    s.cfg.ls + s.cfg.le + 10 ≤ s.blk.flen ∧ s.blk.flen ≤ s.cfg.ls + s.cfg.le + 2 + 8 * s.cfg.maxChars) ∧
  refcfg.frameLength 1 = 35 ∧ refcfg.frameLength refcfg.maxChars = 155 ∧ refcfg.frameLength 2 = 43

/-- R28 and R41: the widths are the least that hold each field's range, and no field ever reaches a value outside its width. -/
def Obligations.EveryFieldFitsItsWidth : Prop :=
  (∀ s : State, s.Inv → s.blk.cc < 2 ^ s.cfg.wCC ∧ s.blk.flen < 2 ^ s.cfg.wFL ∧ s.blk.rdIdx < 2 ^ s.cfg.wFL ∧
    s.blk.cc ≤ s.cfg.maxChars ∧ s.blk.rdIdx ≤ s.blk.flen ∧ s.blk.flen ≤ s.cfg.ls + 8 * s.cfg.maxChars + 2 + s.cfg.le) ∧
  (∀ (cfg : Config) (k : Nat), cfg.maxChars + 1 ≤ 2 ^ k → cfg.wCC ≤ k) ∧
  (∀ (cfg : Config) (k : Nat), cfg.ls + 8 * cfg.maxChars + 2 + cfg.le + 1 ≤ 2 ^ k → cfg.wFL ≤ k) ∧
  refcfg.wCC = 5 ∧ refcfg.wFL = 8

/-- R31: a cell from `8*cc` on is never read, and the unspecified cells of the payload buffer are never seen at any port:
two instances that agree on everything else take every step alike, with the same response, and agree after it. -/
def Obligations.UnspecifiedCellsAreNeverSeen : Prop :=
  (∀ (cfg : Config) (blk : Block) (i : Nat) (b : Bit), pbRead cfg blk i = .ok b → i < 8 * blk.cc) ∧
  (∀ s s' t : State, s.cfg = s'.cfg → s.pending = s'.pending → s.resp = s'.resp → s.blk.Agree s'.blk → step s = .next t →
    ∃ t', step s' = .next t' ∧ t.cfg = t'.cfg ∧ t.pending = t'.pending ∧ t.resp = t'.resp ∧ t.blk.Agree t'.blk)

/-! ### The frame -/

/-- R67 and R68: where each bit of the frame comes from, that `FB` reads exactly the layout, and that it is not defined elsewhere. -/
def Obligations.FrameBitsFollowTheLayout : Prop :=
  ∀ (cfg : Config) (blk : Block), blk.Inv cfg →
    (blk.mode = .ready →
      (frameOf cfg blk).length = blk.flen ∧ blk.flen = cfg.ls + 8 * blk.cc + 2 + cfg.le ∧
      (∀ i < blk.flen, ∃ b, frameBit cfg blk i = .ok b ∧ (frameOf cfg blk)[i]? = some b ∧
        (i < cfg.ls → cfg.sm[i]? = some b) ∧
        (cfg.ls ≤ i → i < cfg.ls + 8 * blk.cc → pbRead cfg blk (i - cfg.ls) = .ok b) ∧
        (i = cfg.ls + 8 * blk.cc → b = blk.t1) ∧
        (i = cfg.ls + 8 * blk.cc + 1 → b = blk.t2) ∧
        (cfg.ls + 8 * blk.cc + 2 ≤ i → cfg.em[i - (cfg.ls + 8 * blk.cc + 2)]? = some b))) ∧
    (∀ i, blk.mode = .accum ∨ blk.flen ≤ i → ∀ b, frameBit cfg blk i ≠ .ok b)

/-- From the BUILD that entered READY until the next CLR or reset only `rd_idx` moves, whatever commands come between, and so `FB(i)`
gives the same bit for every `i` (R26, R75). -/
def Obligations.TheFrameIsStableInReady : Prop :=
  ∀ (s : State) (ws : List CommandWord), s.Inv → s.blk.mode = .ready → encode .clr ∉ ws →
    ∃ rs t, converse ws s = .next (rs, t) ∧ t.blk = { s.blk with rdIdx := t.blk.rdIdx } ∧ t.blk.rdIdx ≤ s.blk.flen ∧
      ∀ i, frameBit t.cfg t.blk i = frameBit s.cfg s.blk i

/-- R32 and R73: from any point of the read-out, POPs hand out the rest of the frame in index order; the last of its bits leaves
`rd_idx = flen`, and the next POP answers DRAINED and changes nothing. -/
def Obligations.PopsHandOutTheFrameInOrder : Prop :=
  ∀ s : State, s.Inv → s.blk.mode = .ready →
    ∃ rs t, converse (popWords (s.blk.flen - s.blk.rdIdx)) s = .next (rs, t) ∧
      rs.map frameBitOf = ((frameOf s.cfg s.blk).drop s.blk.rdIdx).map some ∧
      t.blk = { s.blk with rdIdx := s.blk.flen } ∧ exec .pop t = .next { t with resp := some (responseWord .drained false) }

/-- The commands that send a frame `cycles` times hand out the frame `cycles` times, back to back with no gap bit (R75, R77). -/
def Obligations.CyclesRepeatTheFrame : Prop :=
  ∀ (s : State) (cycles : Nat), s.Inv → s.blk.mode = .ready → s.blk.rdIdx = 0 →
    ∃ rs t, converse (transmitWords s.blk.flen cycles) s = .next (rs, t) ∧
      bitsOut (transmitWords s.blk.flen cycles) rs = (List.replicate cycles (frameOf s.cfg s.blk)).flatten

/-! ### The message -/

/-- R59: after CLR, or reset, and the PUSHes of any codes `t`, the block holds the encoded message; where PUSHes answer FULL, the message
is cut after its first `MAX_CHARS` accepted codes, and `rawpar` counts the codes answered OK or DROP. -/
def Obligations.PushesLeaveTheEncodedMessage : Prop :=
  ∀ (s v : State) (t : List Code), s.cfg.wf = true →
    (exec .clr s = .next v ∨ takeReset s = .next v ∨ v = State.resetWith s.cfg) →
      ∃ rs u, converse (pushWords t) v = .next (rs, u) ∧ rs.length = t.length ∧ u.blk.HoldsMessage s.cfg t rs ∧
        (acc t ≤ s.cfg.maxChars →
          u.blk.cc = acc t ∧ payload u.blk = encodeRef t ∧ u.blk.p1 = ((encodeRef t).count true % 2 == 1) ∧
          u.blk.rawpar = (t.length % 2 == 1) ∧ u.blk.mode = .accum)

/-- R60: filtering twice is filtering once, and pushing the filtered codes leaves the same `pbuf`, `cc` and `p1` as pushing them all. -/
def Obligations.FilteringTwiceIsFilteringOnce : Prop :=
  (∀ t : List Code, filterAllowed (filterAllowed t) = filterAllowed t ∧ encodeRef (filterAllowed t) = encodeRef t) ∧
  (∀ (s : State) (t : List Code), s.cfg.wf = true →
    ∃ rs u rs' u', converse (encode .clr :: pushWords t) s = .next (rs, u) ∧
      converse (encode .clr :: pushWords (filterAllowed t)) s = .next (rs', u') ∧
      u.blk.pbuf = u'.blk.pbuf ∧ u.blk.cc = u'.blk.cc ∧ u.blk.p1 = u'.blk.p1)

/-- R61: where there is room, PUSH stores every allowed code, whatever its bits match or complete: the payload grows by exactly its eight
bits, unchanged, and their first is 0; so every character of a good block's payload is one of the allowed codes. -/
def Obligations.StoredCodesAreAppendedUnchanged : Prop :=
  (∀ (s : State) (c : Code), s.Inv → s.blk.mode = .accum → allowed c = true → s.blk.cc < s.cfg.maxChars →
    ∃ t, exec (.push c) s = .next t ∧ t.resp = some (responseWord .ok false) ∧
      payload t.blk = payload s.blk ++ exp8 c ∧ codeBit c 7 = false) ∧
  (∀ (s t : State) (c : Code), s.Inv → exec (.push c) s = .next t → t.resp = some (responseWord .ok false) →
    payload t.blk = payload s.blk ++ exp8 c ∧ allowed c = true ∧ codeBit c 7 = false) ∧
  (∀ (cfg : Config) (blk : Block), blk.Inv cfg →
    ∃ d : List Code, d.length = blk.cc ∧ payload blk = d.flatMap exp8 ∧ ∀ c ∈ d, allowed c = true ∧ codeBit c 7 = false)

/-- R69: CLR, the PUSHes of `t` and BUILD leave exactly the reference frame of `t`, bit for bit; of a message without an accepted code no
frame is built. Under `P2_SOURCE = ACCEPTED` the frame depends only on the accepted codes. -/
def Obligations.TheStreamedFrameIsTheReferenceFrame : Prop :=
  (∀ (s : State) (t : List Code), s.Inv → acc t ≤ s.cfg.maxChars →
    ∃ rs u, converse (messageWords t) s = .next (rs, u) ∧
      (1 ≤ acc t → rs.getLast? = some (responseWord .ok false) ∧ u.blk.mode = .ready ∧
        ∃ frame, frameRef s.cfg t = some frame ∧ u.blk.flen = frame.length ∧
          ∀ i < u.blk.flen, ∃ b, frameBit u.cfg u.blk i = .ok b ∧ frame[i]? = some b) ∧
      (acc t = 0 → rs.getLast? = some (responseWord .empty false) ∧ u.blk.mode = .accum)) ∧
  (∀ (cfg : Config) (t t' : List Code), cfg.p2Source = .accepted → filterAllowed t = filterAllowed t' →
    frameRef cfg t = frameRef cfg t')

/-- R77, end to end: from any good state, framing a message and then sending it `cycles` times, with `flen` POPs and for each further
cycle one REWIND and `flen` more, takes `cycles * flen` POPs and puts exactly its reference frame on the wire, `cycles` times with no gap
bit. -/
def Obligations.AMessageIsSentAsItsReferenceFrame : Prop :=
  (∀ flen n : Nat, transmitWords flen (n + 1) =
    List.replicate flen (encode .pop) ++ (List.replicate n (encode .rewind :: List.replicate flen (encode .pop))).flatten) ∧
  (∀ (s : State) (t : List Code) (cycles : Nat), s.Inv → 1 ≤ acc t → acc t ≤ s.cfg.maxChars →
    ∃ frame rs u rs' v, frameRef s.cfg t = some frame ∧ converse (messageWords t) s = .next (rs, u) ∧
      u.blk.flen = frame.length ∧ converse (transmitWords frame.length cycles) u = .next (rs', v) ∧
      (transmitWords frame.length cycles).count (encode .pop) = cycles * frame.length ∧
      bitsOut (transmitWords frame.length cycles) rs' = (List.replicate cycles frame).flatten)

/-- R53: the allowed codes, and that there are 62. -/
def Obligations.TheAllowedCodesAreLettersAndDigits : Prop :=
  (∀ c : Code, allowed c = true ↔
    (0x30 ≤ c.toNat ∧ c.toNat ≤ 0x39) ∨ (0x41 ≤ c.toNat ∧ c.toNat ≤ 0x5A) ∨ (0x61 ≤ c.toNat ∧ c.toNat ≤ 0x7A)) ∧
  (((List.range 256).map (BitVec.ofNat 8)).filter allowed).length = 62

/-- R55: the bit expansion, most significant bit first, always eight bits; a bit of a code is that of R9. -/
def Obligations.BitExpansionIsMostSignificantFirst : Prop :=
  (∀ c : Code, (exp8 c).length = 8 ∧ (∀ j < 8, (exp8 c)[j]? = some (codeBit c (7 - j))) ∧
    ∀ k < 8, codeBit c k = (c.toNat / 2 ^ k % 2 == 1)) ∧
  exp8 0x41#8 = bits [0, 1, 0, 0, 0, 0, 0, 1] ∧ exp8 0x42#8 = bits [0, 1, 0, 0, 0, 0, 1, 0]

/-! ### The reference receiver -/

/-- R80: `DECODE_REF`: when it fails, what each chunk becomes, that any codes round-trip, and that it undoes `ENCODE_REF`. -/
def Obligations.DecodeRefUndoesEncodeRef : Prop :=
  (∀ p : BitString, decodeRef p = .error .malformedPayload ↔ p.length % 8 ≠ 0) ∧
  (∀ p : BitString, p.length % 8 = 0 → ∃ d, decodeRef p = .ok d ∧ d.length = p.length / 8 ∧
    ∀ k (h : k < d.length), (d[k]).toNat = ((List.range 8).map fun j => (p[8 * k + j]?.getD false).toNat * 2 ^ (7 - j)).sum) ∧
  (∀ d : List Code, decodeRef (d.flatMap exp8) = .ok d) ∧
  (∀ t : List Code, decodeRef (encodeRef t) = .ok (filterAllowed t))

/-- R81: `SCAN_REF` looks for the last `SM` and the last `EM` after it, occurrences being counted at every start position, and what it
answers in each case. -/
def Obligations.ScanRefFollowsTheLastMarkers : Prop :=
  ∀ (cfg : Config) (r : BitString), cfg.wf = true →
    ((∀ i, (r.drop i).take cfg.ls ≠ cfg.sm) → scanRef cfg r = .pending) ∧
    ∀ i, (r.drop i).take cfg.ls = cfg.sm → (∀ k, i < k → (r.drop k).take cfg.ls ≠ cfg.sm) →
      let u := r.drop (i + cfg.ls)
      ((∀ j, (u.drop j).take cfg.le ≠ cfg.em) → scanRef cfg r = .pending) ∧
      ∀ j, (u.drop j).take cfg.le = cfg.em → (∀ k, j < k → (u.drop k).take cfg.le ≠ cfg.em) →
        (j < 2 → scanRef cfg r = .invalid) ∧
        (2 ≤ j → scanRef cfg r = checkRef (u.take (j - 2)) ((u.drop (j - 2)).take 2))

/-- R82: `CHECK` decodes exactly when the payload candidate has a whole number of characters, at least one, and the right parity. -/
def Obligations.CheckRefValidatesThePayload : Prop :=
  ∀ pay par : BitString,
    (pay.length % 8 = 0 ∧ 8 ≤ pay.length ∧ par = [pay.count true % 2 == 1, pay.length / 8 % 2 == 1] →
      ∃ d, decodeRef pay = .ok d ∧ checkRef pay par = .decoded d) ∧
    (¬ (pay.length % 8 = 0 ∧ 8 ≤ pay.length ∧ par = [pay.count true % 2 == 1, pay.length / 8 % 2 == 1]) →
      checkRef pay par = .invalid)

/-- R84: under `REFCFG` the reference receiver finds every frame of this block: (a) `SM` occurs only at index 0, (b) `EM` only at
`|F| - 13`, (c) the scan decodes the accepted codes, (d) also from the frame repeated, and (e) a proper initial part scans to `Pending`. -/
def Obligations.TheReferenceReceiverAcceptsEveryFrame : Prop :=
  ∀ t : List Code, 1 ≤ acc t → acc t ≤ refcfg.maxChars → ∃ frame, frameRef refcfg t = some frame ∧
    (∀ i, occursAt refcfg.sm frame i = true ↔ i = 0) ∧
    (∀ i, occursAt refcfg.em frame i = true ↔ i = frame.length - 13) ∧
    scanRef refcfg frame = .decoded (filterAllowed t) ∧
    (∀ k, 1 ≤ k → scanRef refcfg (List.replicate k frame).flatten = .decoded (filterAllowed t)) ∧
    (∀ n < frame.length, scanRef refcfg (frame.take n) = .pending)

/-- R85: under `P2_SOURCE = PUSHED` a frame of a message that lost an odd number of codes scans to `Invalid`; where no code is dropped the
two settings give the same frame. -/
def Obligations.AnOddNumberOfDropsFailsTheScanUnderPushed : Prop :=
  (∀ t : List Code, 1 ≤ acc t → acc t ≤ refcfg.maxChars → t.length % 2 ≠ acc t % 2 →
    ∃ frame, frameRef { refcfg with p2Source := .pushed } t = some frame ∧ scanRef refcfg frame = .invalid) ∧
  p2Ref { refcfg with p2Source := .pushed } [0x41#8, 0x2D#8, 0x42#8] = true ∧
  p2Ref refcfg [0x41#8, 0x2D#8, 0x42#8] = false ∧
  (∀ (cfg : Config) (t : List Code), (∀ c ∈ t, allowed c = true) →
    frameRef { cfg with p2Source := .pushed } t = frameRef { cfg with p2Source := .accepted } t)

/-! ### The host and the ports -/

/-- R22: the status outputs show the four fields at all times, and so between two commands what the earlier one left; reading one is no
command and has no side effect, for each is a function of the state alone. -/
def Obligations.StatusOutputsShowTheState : Prop :=
  ∀ s : State, (statMode s = 1#1 ↔ s.blk.mode = .ready) ∧ (statMode s = 0#1 ↔ s.blk.mode = .accum) ∧
    statCC s = s.blk.cc ∧ statFLen s = s.blk.flen ∧ statRdIdx s = s.blk.rdIdx

/-- The block holds its state until the next command or reset (R97): a step in which the host does nothing leaves the block and its
status outputs as they are. That there is such a step is the model's (notes/assumptions/7.md). -/
def Obligations.TheBlockHoldsItsStateBetweenCommands : Prop :=
  ∀ s : State, s.cfg.wf = true → s.pending = [] →
    ∃ t, step s = .next t ∧ t.blk = s.blk ∧ t.cfg = s.cfg ∧
      statMode t = statMode s ∧ statCC t = statCC s ∧ statFLen t = statFLen s ∧ statRdIdx t = statRdIdx s

/-- R62: a character that does not fit in 8 bits is passed as a code that is not allowed, and never as its low 8 bits; every other
character is passed as its own code; every character is passed, so that `rawpar` counts it. -/
def Obligations.TheHostNeverTruncatesACharacter : Prop :=
  (∀ n, 255 < n → hostCode n = 0x00#8 ∧ allowed (hostCode n) = false) ∧
  (∀ n ≤ 255, (hostCode n).toNat = n) ∧ hostCode 0x141 ≠ 0x41#8 ∧
  (∀ text : List Nat, (pushWords (text.map hostCode)).length = text.length ∧
    ∀ k (h : k < text.length), (pushWords (text.map hostCode))[k]? = some (encode (.push (hostCode text[k]))))

/-- R51: the expansions of the pseudo-commands, and that a string with a character whose code is above 255 is refused. -/
def Obligations.PseudoCommandsExpandAsTheirRulesSay : Prop :=
  (∀ text : List Char, (∀ x ∈ text, x.toNat ≤ 255) →
    assembleLine (.pushs text) = .ok (pushWords (text.map fun x => hostCode x.toNat)) ∧
    assembleLine (.send text) = .ok (messageWords (text.map fun x => hostCode x.toNat))) ∧
  assembleLine (.pushs []) = .ok [] ∧
  (∀ n, assembleLine (.popn n) = .ok (List.replicate n 0x4000#16)) ∧
  (∀ (text : List Char) (x : Char), x ∈ text → 255 < x.toNat →
    assembleLine (.pushs text) = .error .outOfRange ∧ assembleLine (.send text) = .error .outOfRange)

/-- Lines of the assembler read as R50 writes them: both spellings of `PUSH 'A'`, a comment, a raw word, and the refusals. How blanks
and digits are read is the model's choice (notes/assumptions/9.md). -/
def Obligations.AssemblerLinesReadAsWritten : Prop :=
  assemble [['P', 'U', 'S', 'H', ' ', '\'', 'A', '\''], ['P', 'U', 'S', 'H', ' ', '0', 'x', '4', '1'],
    ['P', 'U', 'S', 'H', ' ', '6', '5', ' ', ';', 'A'], ['.', 'w', 'o', 'r', 'd', ' ', '0', 'x', '3', '0', '0', '1']]
    = .ok [0x2041#16, 0x2041#16, 0x2041#16, 0x3001#16] ∧
  (∀ n : Nat, assembleLine (.push (.number n)) = if n ≤ 255 then .ok [encode (.push (BitVec.ofNat 8 n))] else .error .outOfRange) ∧
  (∀ x : Char, 255 < x.toNat → assembleLine (.push (.quoted x)) = .error .outOfRange) ∧
  (∀ w : CommandWord, assembleLine (.word w.toNat) = .ok [w])

/-- A conversation of the host with the block is a run of the machine: the state after it is the state after as many steps with the words
waiting at the command port in order (R38, R98; notes/assumptions/6.md). -/
def Obligations.AConversationIsARunOfTheMachine : Prop :=
  ∀ (s u : State) (ws : List CommandWord) (rs : List ResponseWord), converse ws s = .next (rs, u) →
    core.run ws.length { s with pending := ws.map .command ++ s.pending } = .next u ∧ rs.length = ws.length
end

