-- ==== Sys2Proof/Laws/Buffer.lean ====
section
/-! SUPPORT. The laws of the payload buffer: reading after writing, what a write leaves alone, and that every write keeps the canonical
form. -/

namespace Sys2Proof.Machine

@[simp] theorem cellAt_setCell_self (buf : PayloadBuffer) (i : Nat) (b : Bit) : cellAt (setCell buf i b) i = some b := by
  induction buf with
  | nil => simp [setCell, cellAt]
  | cons e rest ih =>
    obtain ⟨k, c⟩ := e
    simp only [setCell]
    split
    · simp [cellAt]
    · split
      · simp [cellAt]
      · have : ¬ k = i := by omega
        simp [cellAt, this, ih]

theorem cellAt_setCell_of_ne (buf : PayloadBuffer) {i j : Nat} (b : Bit) (h : j ≠ i) :
    cellAt (setCell buf i b) j = cellAt buf j := by
  induction buf with
  | nil => simp [setCell, cellAt, Ne.symm h]
  | cons e rest ih =>
    obtain ⟨k, c⟩ := e
    simp only [setCell]
    split
    · simp [cellAt, Ne.symm h]
    · split
      · next hk => subst hk; simp [cellAt, Ne.symm h]
      · simp [cellAt, ih]

/-- Where the indices of a written buffer come from. -/
theorem mem_setCell {buf : PayloadBuffer} {i : Nat} {b : Bit} {e : Nat × Bit} (h : e ∈ setCell buf i b) :
    e = (i, b) ∨ e ∈ buf := by
  induction buf with
  | nil => simpa [setCell] using h
  | cons d rest ih =>
    obtain ⟨k, c⟩ := d
    simp only [setCell] at h
    split at h
    · simpa using h
    · split at h
      · rcases List.mem_cons.mp h with h | h
        · exact .inl h
        · exact .inr (List.mem_cons_of_mem _ h)
      · rcases List.mem_cons.mp h with h | h
        · exact .inr (h ▸ List.mem_cons_self)
        · exact (ih h).imp_right (List.mem_cons_of_mem _)

theorem setCell_wf {buf : PayloadBuffer} (i : Nat) (b : Bit) (h : PayloadBuffer.wf buf) :
    PayloadBuffer.wf (setCell buf i b) := by
  induction buf with
  | nil => simp [setCell, PayloadBuffer.wf]
  | cons d rest ih =>
    obtain ⟨k, c⟩ := d
    simp only [PayloadBuffer.wf, List.map_cons, List.pairwise_cons] at h
    simp only [setCell]
    split
    · next hik =>
      simp only [PayloadBuffer.wf, List.map_cons, List.pairwise_cons, List.mem_cons]
      refine ⟨?_, h⟩
      rintro a (rfl | ha)
      · exact hik
      · exact Nat.lt_trans hik (h.1 a ha)
    · split
      · next _ hik => subst hik; simpa [PayloadBuffer.wf] using h
      · next hlt hne =>
        simp only [PayloadBuffer.wf, List.map_cons, List.pairwise_cons]
        refine ⟨?_, ih h.2⟩
        intro a ha
        obtain ⟨e, he, rfl⟩ := List.mem_map.mp ha
        rcases mem_setCell he with rfl | he
        · simp only; omega
        · exact h.1 _ (List.mem_map_of_mem he)

theorem pbWrite_ok {cfg : Config} {buf buf' : PayloadBuffer} {i : Nat} {b : Bit} (h : pbWrite cfg buf i b = .ok buf') :
    i < cfg.cells ∧ buf' = setCell buf i b := by
  unfold pbWrite at h
  split at h
  · cases h
  · exact ⟨by omega, by cases h; rfl⟩

theorem pbWrite_wf {cfg : Config} {buf buf' : PayloadBuffer} {i : Nat} {b : Bit} (hw : PayloadBuffer.wf buf)
    (h : pbWrite cfg buf i b = .ok buf') : PayloadBuffer.wf buf' :=
  (pbWrite_ok h).2 ▸ setCell_wf i b hw

/-- Everything that writing a bit string into a buffer can do: the cells it covers hold the string, no other cell changes, the canonical
form is kept, and it lists no cell beyond the buffer that was not listed before. -/
theorem pbWriteBits_ok {cfg : Config} {buf buf' : PayloadBuffer} {i : Nat} {s : BitString}
    (h : pbWriteBits cfg buf i s = .ok buf') :
    (∀ j < s.length, cellAt buf' (i + j) = s[j]?) ∧
    (∀ k, k < i ∨ i + s.length ≤ k → cellAt buf' k = cellAt buf k) ∧
    (PayloadBuffer.wf buf → PayloadBuffer.wf buf') ∧
    (∀ e ∈ buf', e ∈ buf ∨ e.1 < cfg.cells) := by
  induction s generalizing buf i with
  | nil =>
    cases h
    exact ⟨by simp, by simp, id, fun e he => .inl he⟩
  | cons b s ih =>
    simp only [pbWriteBits] at h
    split at h
    · next buf1 hw =>
      obtain ⟨hi, rfl⟩ := pbWrite_ok hw
      obtain ⟨h1, h2, h3, h4⟩ := ih h
      refine ⟨?_, ?_, ?_, ?_⟩
      · intro j hj
        cases j with
        | zero => simpa using h2 i (.inl (Nat.lt_succ_self i))
        | succ j =>
          have := h1 j (by simpa using hj)
          rw [show i + (j + 1) = i + 1 + j by omega, this]
          simp
      · intro k hk
        rw [List.length_cons] at hk
        rw [h2 k (by omega), cellAt_setCell_of_ne _ _ (by omega)]
      · exact fun hb => h3 (setCell_wf i b hb)
      · intro e he
        rcases h4 e he with he | he
        · exact (mem_setCell he).elim (fun h => .inr (h ▸ hi)) .inl
        · exact .inr he
    · cases h

/-- A bit string that ends within the buffer can be written. -/
theorem pbWriteBits_succeeds {cfg : Config} (buf : PayloadBuffer) {i : Nat} {s : BitString} (h : i + s.length ≤ cfg.cells) :
    ∃ buf', pbWriteBits cfg buf i s = .ok buf' := by
  induction s generalizing buf i with
  | nil => exact ⟨buf, rfl⟩
  | cons b s ih =>
    rw [List.length_cons] at h
    obtain ⟨buf', hb⟩ := ih (setCell buf i b) (i := i + 1) (by omega)
    exact ⟨buf', by simp [pbWriteBits, pbWrite, show ¬ cfg.cells ≤ i by omega, hb]⟩

/-- `PbRead` answers a bit exactly when the cell exists, lies below `8*cc`, and is listed. -/
theorem pbRead_ok_iff {cfg : Config} {blk : Block} {i : Nat} {b : Bit} :
    pbRead cfg blk i = .ok b ↔ i < cfg.cells ∧ i < 8 * blk.cc ∧ cellAt blk.pbuf i = some b := by
  unfold pbRead
  by_cases h1 : cfg.cells ≤ i
  · simp [h1, Nat.not_lt.mpr h1]
  · by_cases h2 : 8 * blk.cc ≤ i
    · simp [h1, h2, Nat.not_lt.mpr h2]
    · cases hb : cellAt blk.pbuf i <;> simp [h1, h2, Nat.lt_of_not_le h1, Nat.lt_of_not_le h2]

end Sys2Proof.Machine
end

