-- ==== Sys2Proof/Laws/Codec.lean ====
section
/-! SUPPORT. Bit expansion, parity and the payload. -/

namespace Sys2Proof.Machine

@[simp] theorem exp8_length (c : Code) : (exp8 c).length = 8 := rfl

theorem exp8_getElem? (c : Code) {j : Nat} (h : j < 8) : (exp8 c)[j]? = some (codeBit c (7 - j)) := by
  match j, h with
  | 0, _ | 1, _ | 2, _ | 3, _ | 4, _ | 5, _ | 6, _ | 7, _ => rfl

@[simp] theorem parity_nil : parity [] = false := rfl

@[simp] theorem parity_cons (b : Bit) (s : BitString) : parity (b :: s) = xor b (parity s) := rfl

@[simp] theorem parity_append (s u : BitString) : parity (s ++ u) = xor (parity s) (parity u) := by
  induction s with
  | nil => simp
  | cons b s ih => simp [ih]

/-- The exclusive-or over a bit string is the count of its 1 bits, mod 2 (R17). -/
theorem parity_eq_count (s : BitString) : parity s = (s.count true % 2 == 1) := by
  induction s with
  | nil => rfl
  | cons b s ih =>
    cases b
    · simp [ih]
    · rw [parity_cons, ih, List.count_cons_self]
      rcases Nat.mod_two_eq_zero_or_one (s.count true) with h | h <;>
        simp [h, Nat.add_mod]

/-- `popcount(c) mod 2` is the exclusive-or over the 8 bits of `EXP8(c)` (R58). -/
theorem parity_exp8 (c : Code) : parity (exp8 c) = codeParity c := by
  revert c; decide

end Sys2Proof.Machine
end

