-- ==== Sys2Proof/Laws/Decode.lean ====
section
/-! SUPPORT. The fields of a command word. -/

namespace Sys2Proof

@[simp] theorem opField_commandWord (op : BitVec 4) (d : Code) : opField (commandWord op d) = op := by
  apply BitVec.eq_of_getLsbD_eq
  intro i hi
  interval_cases i <;> simp [opField, commandWord]

@[simp] theorem rsvField_commandWord (op : BitVec 4) (d : Code) : rsvField (commandWord op d) = 0#4 := by
  apply BitVec.eq_of_getLsbD_eq
  intro i hi
  interval_cases i <;> simp [rsvField, commandWord]

@[simp] theorem dataField_commandWord (op : BitVec 4) (d : Code) : dataField (commandWord op d) = d := by
  apply BitVec.eq_of_getLsbD_eq
  intro i hi
  interval_cases i <;> simp [dataField, commandWord]

/-- A word whose reserved bits are 0 is made of its `op` and its `data`. -/
theorem eq_commandWord {w : CommandWord} (h : rsvField w = 0#4) : w = commandWord (opField w) (dataField w) := by
  apply BitVec.eq_of_getLsbD_eq
  intro i hi
  have hr : ∀ k, (rsvField w).getLsbD k = false := by simp [h]
  have h0 := hr 0
  have h1 := hr 1
  have h2 := hr 2
  have h3 := hr 3
  simp [rsvField] at h0 h1 h2 h3
  interval_cases i <;> simp [opField, dataField, commandWord, *]

@[simp] theorem tableWord_toNat (w : CommandWord) : tableWord 16 w.toNat = w := by
  simp [tableWord, Nat.mod_eq_of_lt w.isLt]

end Sys2Proof
end

