-- ==== Sys2Proof/Laws/State.lean ====
section
/-! SUPPORT. One lemma per field for each named update of a state, and the small lemmas of the ports. -/

namespace Sys2Proof.Machine

@[simp] theorem answer_cfg (s : State) (a : Answer) : (answer s a).cfg = s.cfg := rfl
@[simp] theorem answer_blk (s : State) (a : Answer) : (answer s a).blk = a.blk := rfl
@[simp] theorem answer_resp (s : State) (a : Answer) : (answer s a).resp = some (responseWord a.code a.bit) := rfl
@[simp] theorem answer_pending (s : State) (a : Answer) : (answer s a).pending = s.pending := rfl

@[simp] theorem issueFirst_cfg (s : State) (w : CommandWord) : (issueFirst s w).cfg = s.cfg := rfl
@[simp] theorem issueFirst_blk (s : State) (w : CommandWord) : (issueFirst s w).blk = s.blk := rfl
@[simp] theorem issueFirst_resp (s : State) (w : CommandWord) : (issueFirst s w).resp = s.resp := rfl
@[simp] theorem issueFirst_pending (s : State) (w : CommandWord) :
    (issueFirst s w).pending = .command w :: s.pending := rfl

@[simp] theorem nextEvent_issueFirst (s : State) (w : CommandWord) :
    nextEvent (issueFirst s w) = some (.command w, s) := rfl

theorem nextEvent_cons {s : State} {e : HostEvent} {rest : List HostEvent} (h : s.pending = e :: rest) :
    nextEvent s = some (e, { s with pending := rest }) := by
  simp [nextEvent, h]

theorem nextEvent_nil {s : State} (h : s.pending = []) : nextEvent s = none := by
  simp [nextEvent, h]

@[simp] theorem withFetchWord_eq (s : State) (nbits w : Nat) :
    s.withFetchWord nbits w = issueFirst s (tableWord nbits w) := rfl

@[simp] theorem resetBlock_mode (b : Block) : (resetBlock b).mode = .accum := rfl
@[simp] theorem resetBlock_pbuf (b : Block) : (resetBlock b).pbuf = b.pbuf := rfl
@[simp] theorem resetBlock_cc (b : Block) : (resetBlock b).cc = 0 := rfl
@[simp] theorem resetBlock_p1 (b : Block) : (resetBlock b).p1 = false := rfl
@[simp] theorem resetBlock_rawpar (b : Block) : (resetBlock b).rawpar = false := rfl
@[simp] theorem resetBlock_t1 (b : Block) : (resetBlock b).t1 = false := rfl
@[simp] theorem resetBlock_t2 (b : Block) : (resetBlock b).t2 = false := rfl
@[simp] theorem resetBlock_flen (b : Block) : (resetBlock b).flen = 0 := rfl
@[simp] theorem resetBlock_rdIdx (b : Block) : (resetBlock b).rdIdx = 0 := rfl

@[simp] theorem resetWith_cfg (cfg : Config) : (State.resetWith cfg).cfg = cfg := rfl
@[simp] theorem resetWith_blk (cfg : Config) : (State.resetWith cfg).blk = Block.atReset := rfl
@[simp] theorem resetWith_resp (cfg : Config) : (State.resetWith cfg).resp = none := rfl
@[simp] theorem resetWith_pending (cfg : Config) : (State.resetWith cfg).pending = [] := rfl

end Sys2Proof.Machine
end

