-- ==== Sys2Proof/Laws/Ops.lean ====
section
/-! SUPPORT. One lemma per shared operation and per meaning that says once everything it can do; the proofs cite these and unfold the
operation no more. -/

namespace Sys2Proof.Machine

open Host (Outcome)

/-! ### Response words (R47, R48) -/

theorem responseWord_ok : responseWord .ok false = 0x00#8 := by decide
theorem responseWord_ok_one : responseWord .ok true = 0x10#8 := by decide
theorem responseWord_drop : responseWord .drop false = 0x01#8 := by decide
theorem responseWord_full : responseWord .full false = 0x02#8 := by decide
theorem responseWord_empty : responseWord .empty false = 0x03#8 := by decide
theorem responseWord_badstate : responseWord .badstate false = 0x04#8 := by decide
theorem responseWord_drained : responseWord .drained false = 0x05#8 := by decide
theorem responseWord_illegal : responseWord .illegal false = 0x06#8 := by decide

/-- A response word tells its code and its bit. -/
@[simp] theorem responseWord_inj {c c' : RespCode} {b b' : Bit} :
    responseWord c b = responseWord c' b' ↔ c = c' ∧ b = b' := by
  cases c <;> cases c' <;> cases b <;> cases b' <;> decide

theorem responseWord_fields (c : RespCode) (b : Bit) :
    (responseWord c b).extractLsb' 0 4 = codeValue c ∧ (responseWord c b).getLsbD 4 = b ∧
      (responseWord c b).extractLsb' 5 3 = 0#3 := by
  cases c <;> cases b <;> decide

/-! ### A step -/

theorem configured_of_wf {s : State} (h : s.cfg.wf = true) (o : Outcome State Fault Refusal) : configured s o = o := by
  simp [configured, h]

theorem configured_of_not_wf {s : State} (h : s.cfg.wf = false) (o : Outcome State Fault Refusal) :
    configured s o = .refused .illFormedConfig := by
  simp [configured, h]

theorem configured_next {s t : State} {o : Outcome State Fault Refusal} (h : configured s o = .next t) :
    s.cfg.wf = true ∧ o = .next t := by
  unfold configured at h
  split at h
  · exact ⟨by assumption, h⟩
  · cases h

theorem perform_of_ok {s : State} {f : Config → Block → Except Fault Answer} {a : Answer} (hc : s.cfg.wf = true)
    (h : f s.cfg s.blk = .ok a) : perform s f = .next (answer s a) := by
  simp [perform, configured, hc, h]

theorem perform_next {s t : State} {f : Config → Block → Except Fault Answer} (h : perform s f = .next t) :
    s.cfg.wf = true ∧ ∃ a, f s.cfg s.blk = .ok a ∧ t = answer s a := by
  obtain ⟨hc, h⟩ := configured_next h
  split at h
  · next a ha => exact ⟨hc, a, ha, by cases h; rfl⟩
  · cases h

/-- The effect that each command has on the block. -/
def effectOf : Instr → Config → Block → Except Fault Answer
  | .clr => clrEffect
  | .push c => pushEffect c
  | .build => buildEffect
  | .pop => popEffect
  | .rewind => rewindEffect

/-- Everything PUSH can do (R58). -/
theorem pushEffect_ok {c : Code} {cfg : Config} {blk : Block} {a : Answer} (h : effectOf (.push c) cfg blk = .ok a) :
    (blk.mode = .ready ∧ a = ⟨blk, .badstate, false⟩) ∨
    (blk.mode = .accum ∧ allowed c = false ∧ a = ⟨{ blk with rawpar := !blk.rawpar }, .drop, false⟩) ∨
    (blk.mode = .accum ∧ allowed c = true ∧ blk.cc = cfg.maxChars ∧ a = ⟨blk, .full, false⟩) ∨
    (blk.mode = .accum ∧ allowed c = true ∧ blk.cc ≠ cfg.maxChars ∧
      ∃ cells, pbWriteBits cfg blk.pbuf (8 * blk.cc) (exp8 c) = .ok cells ∧
        a = ⟨{ blk with pbuf := cells, p1 := xor blk.p1 (codeParity c), cc := blk.cc + 1, rawpar := !blk.rawpar },
          .ok, false⟩) := by
  simp only [effectOf, pushEffect, raise, respond] at h
  split at h
  · next hm => exact .inl ⟨by cases hb : blk.mode <;> simp_all, by cases h; rfl⟩
  · next hm =>
    have hm : blk.mode = .accum := by simpa using hm
    split at h
    · next ha => exact .inr (.inl ⟨hm, ha, by cases h; rfl⟩)
    · next ha =>
      have ha : allowed c = true := by simpa using ha
      split at h
      · next hc => exact .inr (.inr (.inl ⟨hm, ha, hc, by cases h; rfl⟩))
      · next hc =>
        split at h
        · next cells hw => exact .inr (.inr (.inr ⟨hm, ha, hc, cells, hw, by cases h; rfl⟩))
        · cases h

/-- Everything BUILD can do (R66). -/
theorem buildEffect_ok {cfg : Config} {blk : Block} {a : Answer} (h : effectOf .build cfg blk = .ok a) :
    (blk.mode = .ready ∧ a = ⟨blk, .badstate, false⟩) ∨
    (blk.mode = .accum ∧ blk.cc = 0 ∧ a = ⟨blk, .empty, false⟩) ∨
    (blk.mode = .accum ∧ blk.cc ≠ 0 ∧
      a = ⟨{ blk with t1 := blk.p1, t2 := p2 cfg blk, flen := cfg.ls + 8 * blk.cc + 2 + cfg.le, rdIdx := 0, mode := .ready },
        .ok, false⟩) := by
  simp only [effectOf, buildEffect, raise, respond] at h
  split at h
  · next hm => exact .inl ⟨by cases hb : blk.mode <;> simp_all, by cases h; rfl⟩
  · next hm =>
    have hm : blk.mode = .accum := by simpa using hm
    split at h
    · next hc => exact .inr (.inl ⟨hm, hc, by cases h; rfl⟩)
    · next hc => exact .inr (.inr ⟨hm, hc, by cases h; rfl⟩)

/-- Everything POP can do (R73). -/
theorem popEffect_ok {cfg : Config} {blk : Block} {a : Answer} (h : effectOf .pop cfg blk = .ok a) :
    (blk.mode = .accum ∧ a = ⟨blk, .badstate, false⟩) ∨
    (blk.mode = .ready ∧ blk.rdIdx = blk.flen ∧ a = ⟨blk, .drained, false⟩) ∨
    (blk.mode = .ready ∧ blk.rdIdx ≠ blk.flen ∧
      ∃ b, frameBit cfg blk blk.rdIdx = .ok b ∧ a = ⟨{ blk with rdIdx := blk.rdIdx + 1 }, .ok, b⟩) := by
  simp only [effectOf, popEffect, raise, respond] at h
  split at h
  · next hm => exact .inl ⟨by cases hb : blk.mode <;> simp_all, by cases h; rfl⟩
  · next hm =>
    have hm : blk.mode = .ready := by simpa using hm
    split at h
    · next hc => exact .inr (.inl ⟨hm, hc, by cases h; rfl⟩)
    · next hc =>
      split at h
      · next b hb => exact .inr (.inr ⟨hm, hc, b, hb, by cases h; rfl⟩)
      · cases h

/-- Everything REWIND can do (R74). -/
theorem rewindEffect_ok {cfg : Config} {blk : Block} {a : Answer} (h : effectOf .rewind cfg blk = .ok a) :
    (blk.mode = .accum ∧ a = ⟨blk, .badstate, false⟩) ∨
    (blk.mode = .ready ∧ a = ⟨{ blk with rdIdx := 0 }, .ok, false⟩) := by
  simp only [effectOf, rewindEffect, raise, respond] at h
  split at h
  · next hm => exact .inl ⟨by cases hb : blk.mode <;> simp_all, by cases h; rfl⟩
  · next hm => exact .inr ⟨by simpa using hm, by cases h; rfl⟩

/-- Everything CLR can do (R57). -/
theorem clrEffect_ok {cfg : Config} {blk : Block} {a : Answer} (h : effectOf .clr cfg blk = .ok a) :
    a = ⟨{ blk with mode := .accum, cc := 0, p1 := false, rawpar := false, t1 := false, t2 := false, flen := 0, rdIdx := 0 },
      .ok, false⟩ := by
  cases h; rfl

/-- Every command is one atomic step of its effect. -/
theorem exec_eq_perform (i : Instr) (s : State) : exec i s = perform s (effectOf i) := by
  cases i <;> rfl

theorem exec_next {i : Instr} {s t : State} (h : exec i s = .next t) :
    s.cfg.wf = true ∧ ∃ a, effectOf i s.cfg s.blk = .ok a ∧ t = answer s a :=
  perform_next (exec_eq_perform i s ▸ h)

theorem execIllegal_of_wf {s : State} (h : s.cfg.wf = true) : execIllegal s = .next (answer s ⟨s.blk, .illegal, false⟩) :=
  perform_of_ok h rfl

theorem takeReset_of_wf {s : State} (h : s.cfg.wf = true) :
    takeReset s = .next { s with blk := resetBlock s.blk, resp := none } :=
  configured_of_wf h _

/-- Everything a step can do: hold, reset, run a legal command, or answer an illegal word. -/
theorem step_next {s t : State} (h : step s = .next t) :
    s.cfg.wf = true ∧
    ((s.pending = [] ∧ t = s) ∨
     (∃ rest, s.pending = .reset :: rest ∧ t = { s with blk := resetBlock s.blk, resp := none, pending := rest }) ∨
     (∃ w rest i a, s.pending = .command w :: rest ∧ decode w = .ok i ∧ effectOf i s.cfg s.blk = .ok a ∧
        t = answer { s with pending := rest } a) ∨
     (∃ w rest e, s.pending = .command w :: rest ∧ decode w = .error e ∧
        t = answer { s with pending := rest } ⟨s.blk, .illegal, false⟩)) := by
  cases hp : s.pending with
  | nil =>
    simp only [step, nextEvent_nil hp] at h
    obtain ⟨hc, h⟩ := configured_next h
    exact ⟨hc, .inl ⟨rfl, by cases h; rfl⟩⟩
  | cons e rest =>
    simp only [step, nextEvent_cons hp] at h
    cases e with
    | reset =>
      obtain ⟨hc, h⟩ := configured_next h
      exact ⟨hc, .inr (.inl ⟨rest, rfl, by cases h; rfl⟩)⟩
    | command w =>
      simp only at h
      split at h
      · next i hi =>
        obtain ⟨hc, a, ha, ht⟩ := exec_next h
        exact ⟨hc, .inr (.inr (.inl ⟨w, rest, i, a, rfl, hi, ha, ht⟩))⟩
      · next e he =>
        obtain ⟨hc, a, ha, ht⟩ := perform_next h
        exact ⟨hc, .inr (.inr (.inr ⟨w, rest, e, rfl, he, by cases ha; exact ht⟩))⟩

theorem step_command {s : State} {w : CommandWord} {rest : List HostEvent} {i : Instr}
    (hp : s.pending = .command w :: rest) (hd : decode w = .ok i) : step s = exec i { s with pending := rest } := by
  simp [step, nextEvent_cons hp, hd]

theorem step_illegal {s : State} {w : CommandWord} {rest : List HostEvent} {e : DecodeError}
    (hp : s.pending = .command w :: rest) (hd : decode w = .error e) : step s = execIllegal { s with pending := rest } := by
  simp [step, nextEvent_cons hp, hd]

theorem step_reset {s : State} {rest : List HostEvent} (hp : s.pending = .reset :: rest) :
    step s = takeReset { s with pending := rest } := by
  simp [step, nextEvent_cons hp]

theorem step_idle {s : State} (hp : s.pending = []) : step s = idle s := by
  simp [step, nextEvent_nil hp]

theorem exec_of_ok {s : State} {i : Instr} {a : Answer} (hc : s.cfg.wf = true) (h : effectOf i s.cfg s.blk = .ok a) :
    exec i s = .next (answer s a) := by
  rw [exec_eq_perform]; exact perform_of_ok hc h

theorem step_command_next {s : State} {w : CommandWord} {rest : List HostEvent} {i : Instr} {a : Answer}
    (hc : s.cfg.wf = true) (hp : s.pending = .command w :: rest) (hd : decode w = .ok i)
    (h : effectOf i s.cfg s.blk = .ok a) : step s = .next (answer { s with pending := rest } a) := by
  rw [step_command hp hd]; exact exec_of_ok (s := { s with pending := rest }) hc h

theorem step_illegal_next {s : State} {w : CommandWord} {rest : List HostEvent} {e : DecodeError} (hc : s.cfg.wf = true)
    (hp : s.pending = .command w :: rest) (hd : decode w = .error e) :
    step s = .next (answer { s with pending := rest } ⟨s.blk, .illegal, false⟩) := by
  rw [step_illegal hp hd]; exact execIllegal_of_wf (s := { s with pending := rest }) hc

theorem step_reset_next {s : State} {rest : List HostEvent} (hc : s.cfg.wf = true) (hp : s.pending = .reset :: rest) :
    step s = .next { s with blk := resetBlock s.blk, resp := none, pending := rest } := by
  rw [step_reset hp]; exact takeReset_of_wf (s := { s with pending := rest }) hc

theorem step_idle_next {s : State} (hc : s.cfg.wf = true) (hp : s.pending = []) : step s = .next s := by
  rw [step_idle hp]; exact configured_of_wf hc _

theorem takeReset_next {s t : State} (h : takeReset s = .next t) :
    s.cfg.wf = true ∧ t = { s with blk := resetBlock s.blk, resp := none } := by
  obtain ⟨hc, h⟩ := configured_next h
  exact ⟨hc, by cases h; rfl⟩

end Sys2Proof.Machine
end

