-- ==== Sys2Proof/Laws/Host.lean ====
section
/-! SUPPORT. Conversations of the host with the block, and the frame bits that come out of them. -/

namespace Sys2Proof.Machine

/-- A conversation begins with its first word. -/
theorem converse_cons {w : CommandWord} {ws : List CommandWord} {s t u : State} {rs : List ResponseWord}
    (h : step (issueFirst s w) = .next t) (hr : converse ws t = .next (rs, u)) :
    converse (w :: ws) s = .next (t.resp.toList ++ rs, u) := by
  simp [converse, h, hr]

/-- What a conversation that goes on was made of. -/
theorem converse_cons_inv {w : CommandWord} {ws : List CommandWord} {s u : State} {rs : List ResponseWord}
    (h : converse (w :: ws) s = .next (rs, u)) :
    ∃ t rs', step (issueFirst s w) = .next t ∧ converse ws t = .next (rs', u) ∧ rs = t.resp.toList ++ rs' := by
  simp only [converse] at h
  split at h
  · cases h
  · cases h
  · next t ht =>
    split at h
    · cases h
    · cases h
    · next rs' u' hr => cases h; exact ⟨t, rs', ht, hr, rfl⟩

/-- Two conversations, one after the other. -/
theorem converse_append {ws vs : List CommandWord} {s t u : State} {rs qs : List ResponseWord}
    (h : converse ws s = .next (rs, t)) (hv : converse vs t = .next (qs, u)) :
    converse (ws ++ vs) s = .next (rs ++ qs, u) := by
  induction ws generalizing s rs with
  | nil => cases h; exact hv
  | cons w ws ih =>
    obtain ⟨m, rs', hm, hr, rfl⟩ := converse_cons_inv h
    rw [List.append_assoc]
    exact converse_cons hm (ih hr)

/-- An OK response to a POP carries its bit. -/
theorem frameBitOf_ok (b : Bit) : frameBitOf (responseWord .ok b) = some b := by cases b <;> decide

/-- The bits out of two conversations, one after the other. -/
theorem bitsOut_append (ws vs : List CommandWord) (rs qs : List ResponseWord) (h : ws.length = rs.length) :
    bitsOut (ws ++ vs) (rs ++ qs) = bitsOut ws rs ++ bitsOut vs qs := by
  induction ws generalizing rs with
  | nil => cases rs with
    | nil => simp [bitsOut]
    | cons _ _ => simp at h
  | cons w ws ih => cases rs with
    | nil => simp at h
    | cons r rs => simp [bitsOut, ih rs (by simpa using h)]

/-- The bits out of POPs alone. -/
theorem bitsOut_pops (n : Nat) (rs : List ResponseWord) (f : BitString) (hl : f.length = n) (h : rs.map frameBitOf = f.map some) :
    bitsOut (popWords n) rs = f := by
  induction n generalizing rs f with
  | zero => cases f with
    | nil => simp [popWords, bitsOut]
    | cons _ _ => simp at hl
  | succ n ih => cases f with
    | nil => simp at hl
    | cons b f => cases rs with
      | nil => simp at h
      | cons r rs =>
        simp only [List.map_cons, List.cons.injEq] at h
        have := ih rs f (by simpa using hl) h.2
        simp only [popWords] at this
        simp [popWords, List.replicate_succ, bitsOut, h.1, this]

end Sys2Proof.Machine
end

