-- ==== Sys2Proof/Laws/Payload.lean ====
section
/-! SUPPORT. The payload bits of a block, read from the cells of its buffer, and the frame bit function. -/

namespace Sys2Proof.Machine

/-- Where every cell below `n` is specified, the bits listed below `n` are the cells in order. -/
theorem filterMap_cells {f : Nat → Option Bit} {n : Nat} (h : ∀ i < n, ∃ b, f i = some b) :
    ((List.range n).filterMap f).length = n ∧ ∀ i < n, ((List.range n).filterMap f)[i]? = f i := by
  induction n with
  | zero => simp
  | succ n ih =>
    obtain ⟨hl, hg⟩ := ih fun i hi => h i (by omega)
    obtain ⟨b, hb⟩ := h n (by omega)
    have e : (List.range (n + 1)).filterMap f = (List.range n).filterMap f ++ [b] := by
      rw [List.range_succ, List.filterMap_append]; simp [hb]
    rw [e]
    refine ⟨by simp [hl], fun i hi => ?_⟩
    by_cases hin : i < n
    · rw [List.getElem?_append_left (by omega), hg i hin]
    · obtain rfl : i = n := by omega
      rw [List.getElem?_append_right (by omega)]
      simp [hl, hb]

/-- One more character of the payload. -/
theorem filterMap_cells_succ {buf : PayloadBuffer} {n : Nat} {c : Code}
    (h : ∀ j < 8, cellAt buf (8 * n + j) = some (codeBit c (7 - j))) :
    (List.range (8 * (n + 1))).filterMap (cellAt buf) = (List.range (8 * n)).filterMap (cellAt buf) ++ exp8 c := by
  have e : List.range (8 * (n + 1)) = List.range (8 * n) ++ (List.range 8).map (8 * n + ·) := by
    rw [show 8 * (n + 1) = 8 * n + 8 by omega, List.range_add]
  rw [e, List.filterMap_append]
  congr 1
  have h0 := h 0 (by omega); have h1 := h 1 (by omega); have h2 := h 2 (by omega); have h3 := h 3 (by omega)
  have h4 := h 4 (by omega); have h5 := h 5 (by omega); have h6 := h 6 (by omega); have h7 := h 7 (by omega)
  simp [List.range, List.range.loop, exp8] at *
  simp [h0, h1, h2, h3, h4, h5, h6, h7]

/-- Buffers that agree below `8*n` list the same bits there. -/
theorem filterMap_cells_congr {buf buf' : PayloadBuffer} {n : Nat} (h : ∀ k < n, cellAt buf' k = cellAt buf k) :
    (List.range n).filterMap (cellAt buf') = (List.range n).filterMap (cellAt buf) := by
  apply List.filterMap_congr
  intro k hk
  exact h k (by simpa using hk)

/-- The payload of a good block is made of allowed codes, and its cells are specified. -/
theorem Block.PayloadInv.codes {cfg : Config} {blk : Block} (h : Block.PayloadInv cfg blk) :
    ∃ d : List Code, d.length = blk.cc ∧ Machine.payload blk = d.flatMap exp8 ∧ ∀ c ∈ d, allowed c = true := by
  have key : ∀ n ≤ blk.cc, ∃ d : List Code, d.length = n ∧
      (List.range (8 * n)).filterMap (cellAt blk.pbuf) = d.flatMap exp8 ∧ ∀ c ∈ d, allowed c = true := by
    intro n
    induction n with
    | zero => exact fun _ => ⟨[], rfl, rfl, by simp⟩
    | succ n ih =>
      intro hn
      obtain ⟨d, hd, hp, ha⟩ := ih (by omega)
      obtain ⟨c, hc, hold⟩ := h.characters n (by omega)
      refine ⟨d ++ [c], by simp [hd], ?_, ?_⟩
      · rw [filterMap_cells_succ hold, hp]; simp
      · intro x hx
        rcases List.mem_append.mp hx with hx | hx
        · exact ha x hx
        · rw [List.mem_singleton.mp hx]; exact hc
  exact key blk.cc (Nat.le_refl _)

/-- No cell of a good block's payload is unspecified. -/
theorem Block.PayloadInv.specified {cfg : Config} {blk : Block} (h : Block.PayloadInv cfg blk) :
    ∀ i < 8 * blk.cc, ∃ b, cellAt blk.pbuf i = some b := by
  intro i hi
  obtain ⟨c, -, hold⟩ := h.characters (i / 8) (by omega)
  have := hold (i % 8) (by omega)
  rw [show 8 * (i / 8) + i % 8 = i by omega] at this
  exact ⟨_, this⟩

theorem Block.PayloadInv.payload_length {cfg : Config} {blk : Block} (h : Block.PayloadInv cfg blk) :
    (Machine.payload blk).length = 8 * blk.cc := (filterMap_cells h.specified).1

theorem Block.PayloadInv.payload_getElem? {cfg : Config} {blk : Block} (h : Block.PayloadInv cfg blk) {i : Nat}
    (hi : i < 8 * blk.cc) : (Machine.payload blk)[i]? = cellAt blk.pbuf i := (filterMap_cells h.specified).2 i hi

theorem Block.PayloadInv.pbRead {cfg : Config} {blk : Block} (h : Block.PayloadInv cfg blk) {i : Nat}
    (hi : i < 8 * blk.cc) : ∃ b, Machine.pbRead cfg blk i = .ok b ∧ cellAt blk.pbuf i = some b := by
  obtain ⟨b, hb⟩ := h.specified i hi
  exact ⟨b, pbRead_ok_iff.2 ⟨by have := h.fits; simp only [Config.cells]; omega, hi, hb⟩, hb⟩

/-- A PUSH that stores: the payload grows by the code's bits. -/
theorem push_payload {cfg : Config} {blk : Block} {cells : PayloadBuffer} {c : Code}
    (hw : pbWriteBits cfg blk.pbuf (8 * blk.cc) (exp8 c) = .ok cells) :
    (List.range (8 * (blk.cc + 1))).filterMap (cellAt cells) = payload blk ++ exp8 c := by
  obtain ⟨h1, h2, -, -⟩ := pbWriteBits_ok hw
  rw [filterMap_cells_succ (c := c), payload]
  · congr 1
    exact filterMap_cells_congr fun k hk => h2 k (.inl hk)
  · intro j hj
    rw [h1 j (by simpa using hj), exp8_getElem? c hj]

/-- Everything that `FB` can answer (R68): the mode and the index it is defined for, and where the bit comes from. -/
theorem frameBit_ok {cfg : Config} {blk : Block} {i : Nat} {b : Bit} (h : frameBit cfg blk i = .ok b) :
    blk.mode = .ready ∧ i < blk.flen ∧
    ((i < cfg.ls ∧ markerBit cfg.sm i = .ok b) ∨
     (cfg.ls ≤ i ∧ i < cfg.ls + 8 * blk.cc ∧ Machine.pbRead cfg blk (i - cfg.ls) = .ok b) ∨
     (i = cfg.ls + 8 * blk.cc ∧ b = blk.t1) ∨
     (i = cfg.ls + 8 * blk.cc + 1 ∧ b = blk.t2) ∨
     (cfg.ls + 8 * blk.cc + 2 ≤ i ∧ markerBit cfg.em (i - (cfg.ls + 8 * blk.cc + 2)) = .ok b)) := by
  unfold frameBit at h
  split at h
  · cases h
  · next hd =>
    simp only [not_or, not_not, not_le] at hd
    refine ⟨hd.1, hd.2, ?_⟩
    split at h
    · next h1 => exact .inl ⟨h1, h⟩
    · next h1 =>
      split at h
      · next h2 => exact .inr (.inl ⟨by omega, h2, h⟩)
      · split at h
        · next h3 => exact .inr (.inr (.inl ⟨h3, by cases h; rfl⟩))
        · split at h
          · next h4 => exact .inr (.inr (.inr (.inl ⟨h4, by cases h; rfl⟩)))
          · exact .inr (.inr (.inr (.inr ⟨by omega, h⟩)))

/-- Every command keeps the canonical form of the payload buffer. -/
theorem effectOf_wf {i : Instr} {cfg : Config} {blk : Block} {a : Answer} (hw : PayloadBuffer.wf blk.pbuf)
    (h : effectOf i cfg blk = .ok a) : PayloadBuffer.wf a.blk.pbuf := by
  cases i with
  | clr => rw [clrEffect_ok h]; exact hw
  | push c =>
    rcases pushEffect_ok h with ⟨-, rfl⟩ | ⟨-, -, rfl⟩ | ⟨-, -, -, rfl⟩ | ⟨-, -, -, cells, hc, rfl⟩
    · exact hw
    · exact hw
    · exact hw
    · exact (pbWriteBits_ok hc).2.2.1 hw
  | build => rcases buildEffect_ok h with ⟨-, rfl⟩ | ⟨-, -, rfl⟩ | ⟨-, -, rfl⟩ <;> exact hw
  | pop => rcases popEffect_ok h with ⟨-, rfl⟩ | ⟨-, -, rfl⟩ | ⟨-, -, _, -, rfl⟩ <;> exact hw
  | rewind => rcases rewindEffect_ok h with ⟨-, rfl⟩ | ⟨-, rfl⟩ <;> exact hw

/-- Reset keeps the canonical form, since it writes no cell. -/
theorem resetBlock_wf {blk : Block} (hw : PayloadBuffer.wf blk.pbuf) : PayloadBuffer.wf (resetBlock blk).pbuf := hw

/-- The buffer right after reset is in canonical form. -/
theorem reset_wf : PayloadBuffer.wf State.reset.blk.pbuf := List.Pairwise.nil

end Sys2Proof.Machine
end

