-- ==== Sys2Proof/Laws/PerInstr.lean ====
section
/-! SUPPORT. Statements about every command as syntax, one lemma per constructor. -/

namespace Sys2Proof.Laws.EncodeLegal

/-- The word of a command is legal (R45). -/
def Statement (i : Instr) : Prop := legal (encode i) = true

theorem clr : Statement .clr := by unfold Statement; decide

theorem push (c : Code) : Statement (.push c) := by
  revert c; unfold Statement; decide

theorem build : Statement .build := by unfold Statement; decide

theorem pop : Statement .pop := by unfold Statement; decide

theorem rewind : Statement .rewind := by unfold Statement; decide

end Sys2Proof.Laws.EncodeLegal
end

