-- ==== Sys2Proof/Laws/Reference.lean ====
section
/-! SUPPORT. The encoded message as a bit string, and where a marker occurs in a bit string. -/

namespace Sys2Proof.Machine

/-- Eight bits for each code (R56). -/
theorem flatMap_exp8_length (d : List Code) : (d.flatMap exp8).length = 8 * d.length := by
  induction d with
  | nil => rfl
  | cons c d ih => simp only [List.flatMap_cons, List.length_append, exp8_length, ih, List.length_cons]; omega

/-- Where bit `j` of the code `k` stands in an encoded message. -/
theorem flatMap_exp8_getElem? (d : List Code) {k j : Nat} (hk : k < d.length) (hj : j < 8) :
    (d.flatMap exp8)[8 * k + j]? = some (codeBit d[k] (7 - j)) := by
  induction d generalizing k with
  | nil => simp at hk
  | cons c d ih =>
    rw [List.flatMap_cons]
    cases k with
    | zero => rw [List.getElem?_append_left (by simp; omega)]; simpa using exp8_getElem? c hj
    | succ k =>
      rw [List.getElem?_append_right (by simp; omega)]
      simp only [exp8_length, List.getElem_cons_succ]
      rw [show 8 * (k + 1) + j - 8 = 8 * k + j by omega]
      exact ih (by simpa using hk)

/-- An occurrence, bit by bit. -/
theorem occursAt_iff {m r : BitString} (i : Nat) : occursAt m r i = true ↔ ∀ j < m.length, r[i + j]? = m[j]? := by
  simp only [occursAt, beq_iff_eq]
  constructor
  · intro h j hj
    have : ((r.drop i).take m.length)[j]? = m[j]? := by rw [h]
    rw [List.getElem?_take_of_lt hj, List.getElem?_drop] at this
    exact this
  · intro h
    apply List.ext_getElem?
    intro j
    by_cases hj : j < m.length
    · rw [List.getElem?_take_of_lt hj, List.getElem?_drop]; exact h j hj
    · rw [List.getElem?_eq_none (by simp; omega), List.getElem?_eq_none (by omega)]

/-- An occurrence lies within the string. -/
theorem occursAt_bound {m r : BitString} {i : Nat} (hm : 0 < m.length) (h : occursAt m r i = true) : i + m.length ≤ r.length := by
  have := (occursAt_iff i).1 h (m.length - 1) (by omega)
  rw [List.getElem?_eq_getElem (show m.length - 1 < m.length by omega)] at this
  obtain ⟨hlt, -⟩ := List.getElem?_eq_some_iff.1 this
  omega

theorem find?_reverse_range {p : Nat → Bool} {n i : Nat} (hi : i < n) (hp : p i = true) (hl : ∀ j, i < j → j < n → p j = false) :
    (List.range n).reverse.find? p = some i := by
  induction n with
  | zero => omega
  | succ n ih =>
    rw [List.range_succ, List.reverse_append, List.reverse_singleton, List.singleton_append, List.find?_cons]
    by_cases h : i = n
    · subst h; simp [hp]
    · rw [hl n (by omega) (by omega)]
      exact ih (by omega) (fun j a b => hl j a (by omega))

/-- The last occurrence is the one after which there is no other. -/
theorem lastOccurrence_some {m r : BitString} {i : Nat} (hm : 0 < m.length) (h : occursAt m r i = true)
    (hl : ∀ j, i < j → occursAt m r j ≠ true) : lastOccurrence m r = some i :=
  find?_reverse_range (by have := occursAt_bound hm h; omega) h (fun j hj _ => by simpa using hl j hj)

theorem lastOccurrence_none {m r : BitString} (hl : ∀ j, occursAt m r j ≠ true) : lastOccurrence m r = none := by
  rw [lastOccurrence, List.find?_eq_none]
  intro j _; exact hl j

theorem occursAt_drop {m r : BitString} (k i : Nat) : occursAt m (r.drop k) i = occursAt m r (k + i) := by
  simp [occursAt, List.drop_drop]

theorem occursAt_append {m x r : BitString} (i : Nat) : occursAt m (x ++ r) (x.length + i) = occursAt m r i := by
  rw [← occursAt_drop]; simp

theorem occursAt_take {m r : BitString} {n i : Nat} (hm : 0 < m.length) (h : occursAt m (r.take n) i = true) :
    occursAt m r i = true ∧ i + m.length ≤ n := by
  have hb := occursAt_bound hm h
  simp only [List.length_take] at hb
  refine ⟨?_, by omega⟩
  rw [occursAt_iff] at h ⊢
  intro j hj
  rw [← h j hj, List.getElem?_take_of_lt (by omega)]

end Sys2Proof.Machine
end

