-- ==== Sys2Proof/Tests/Slice0.lean ====
section
/-! SUPPORT. Tests whose expected results come from spec/30_encoding.md, spec/40_bitcodec.md rule R54 and spec/95_test_vectors.md, and for
each statement with hypotheses a concrete input that meets them. -/

namespace Sys2Proof.Tests

open Sys2Proof Sys2Proof.Machine
open Host (Outcome)

/-! ### Helpers -/

/-- An outcome that goes on to a state with a property. -/
def nextSatisfies (o : Outcome State Fault Refusal) (p : State → Bool) : Bool :=
  match o with
  | .next t => p t
  | .fault _ | .refused _ => false

theorem nextSatisfies_elim {o : Outcome State Fault Refusal} {p : State → Bool} (h : nextSatisfies o p = true) :
    ∃ t, o = .next t ∧ p t = true := by
  cases o with
  | next t => exact ⟨t, rfl, h⟩
  | fault _ => cases h
  | refused _ => cases h

/-- A payload buffer that lists `s` from cell 0 on. -/
def listed (s : BitString) : PayloadBuffer := (List.range s.length).zip s

/-- ACCUM after CLR and the PUSHes of allowed codes whose bits are `s`. -/
def accumBlock (s : BitString) (p1 rawpar : Bit) : Block :=
  { Block.atReset with pbuf := listed s, cc := s.length / 8, p1 := p1, rawpar := rawpar }

/-- READY with the frame of such a payload under `REFCFG`. -/
def readyBlock (s : BitString) (t1 t2 rawpar : Bit) (rdIdx : Nat) : Block :=
  { mode := .ready, pbuf := listed s, cc := s.length / 8, p1 := t1, rawpar := rawpar, t1 := t1, t2 := t2
    flen := 27 + s.length, rdIdx := rdIdx }

/-- An instance with a block, whose host has issued these words and resets. -/
def instanceOf (cfg : Config) (blk : Block) (pending : List HostEvent) : State :=
  { State.resetWith cfg with blk := blk, pending := pending }

/-- The payload of "A", from spec/95_test_vectors.md section L2.3. -/
def payloadA : BitString := bits [0, 1, 0, 0, 0, 0, 0, 1]

/-- The payload of "AB", from spec/95_test_vectors.md section L1 item 1. -/
def payloadAB : BitString := bits [0, 1, 0, 0, 0, 0, 0, 1, 0, 1, 0, 0, 0, 0, 1, 0]

/-- The frame of "AB", from spec/95_test_vectors.md section L1 item 3. -/
def frameAB : BitString := bits [0, 1, 1, 1, 1, 1, 1, 1, 1, 1, 0, 1, 0, 1, 0, 0, 0, 0, 0, 1, 0, 1, 0, 0, 0, 0, 1, 0, 0, 0,
  0, 0, 1, 0, 0, 0, 0, 0, 0, 0, 0, 1, 0]

/-- `REFCFG` with room for one character. -/
def smallcfg : Config := { refcfg with maxChars := 1 }

/-- ACCUM, empty. -/
def emptyState (pending : List HostEvent) : State := instanceOf refcfg Block.atReset pending

/-- ACCUM holding "A". -/
def accumA (pending : List HostEvent) : State := instanceOf refcfg (accumBlock payloadA false true) pending

/-- ACCUM holding "A", at capacity. -/
def fullA (pending : List HostEvent) : State := instanceOf smallcfg (accumBlock payloadA false true) pending

/-- READY with the frame of "A", read out up to `rdIdx`. -/
def readyA (rdIdx : Nat) (pending : List HostEvent) : State :=
  instanceOf refcfg (readyBlock payloadA false true true rdIdx) pending

/-- READY with the frame of "AB", read out up to `rdIdx`. -/
def readyAB (rdIdx : Nat) (pending : List HostEvent) : State :=
  instanceOf refcfg (readyBlock payloadAB false false false rdIdx) pending

/-- An instance whose configuration is not well-formed. -/
def illFormed (pending : List HostEvent) : State := instanceOf { refcfg with em := refcfg.sm } Block.atReset pending

/-! ### Well-formedness: an ill-formed term for each check, refused -/

theorem test_refcfg_wf : refcfg.wf = true := by decide
theorem test_short_sm_refused : { refcfg with sm := bits [0, 1, 1, 1, 1, 1, 1] }.wf = false := by decide
theorem test_short_em_refused : { refcfg with em := bits [0, 0, 1, 0, 0, 0, 0] }.wf = false := by decide
theorem test_equal_markers_refused : { refcfg with em := refcfg.sm }.wf = false := by decide
theorem test_equal_markers_not_distinct : { refcfg with em := refcfg.sm }.markersDistinct = false := by decide
theorem test_sm_begins_em_refused : { refcfg with em := refcfg.sm ++ bits [0] }.wf = false := by decide
theorem test_em_begins_sm_refused : { refcfg with sm := refcfg.em ++ bits [0] }.wf = false := by decide
theorem test_no_capacity_refused : { refcfg with maxChars := 0 }.wf = false := by decide
theorem test_markers_of_eight_bits_wf :
    { refcfg with sm := bits [0, 1, 1, 1, 1, 1, 1, 1], em := bits [1, 0, 0, 0, 0, 0, 0, 0], maxChars := 1 }.wf = true := by decide
theorem test_push_number_256_refused : (AsmLine.push (.number 256)).wf = false := by decide
theorem test_push_wide_character_refused : (AsmLine.push (.quoted (Char.ofNat 0x141))).wf = false := by decide
theorem test_word_17_bits_refused : (AsmLine.word 0x10000).wf = false := by decide
theorem test_pushs_wide_character_refused : (AsmLine.pushs ['A', Char.ofNat 0x141]).wf = false := by decide
theorem test_send_wide_character_refused : (AsmLine.send [Char.ofNat 256]).wf = false := by decide

/-! ### Decoding: each constructor's word written out from R42 and R44, then the illegal words of section L2.1 -/

theorem test_decode_clr : decode 0b0001000000000000#16 = .ok .clr := by decide
theorem test_decode_push_A : decode 0b0010000001000001#16 = .ok (.push 0b01000001#8) := by decide
theorem test_decode_push_FF : decode 0b0010000011111111#16 = .ok (.push 0b11111111#8) := by decide
theorem test_decode_build : decode 0b0011000000000000#16 = .ok .build := by decide
theorem test_decode_pop : decode 0b0100000000000000#16 = .ok .pop := by decide
theorem test_decode_rewind : decode 0b0101000000000000#16 = .ok .rewind := by decide
theorem test_decode_op_0 : decode 0x0000#16 = .error .reservedOp := by decide
theorem test_decode_op_6 : decode 0x6000#16 = .error .reservedOp := by decide
theorem test_decode_op_F : decode 0xF000#16 = .error .reservedOp := by decide
theorem test_decode_rsv_on_push : decode 0x2141#16 = .error .reservedBits := by decide
theorem test_decode_data_on_clr : decode 0x1001#16 = .error .dataNotZero := by decide
theorem test_decode_data_on_build : decode 0x3001#16 = .error .dataNotZero := by decide
theorem test_decode_data_on_pop : decode 0x40FF#16 = .error .dataNotZero := by decide
theorem test_decode_data_on_rewind : decode 0x5080#16 = .error .dataNotZero := by decide
theorem test_decodeTableWord_push : decodeTableWord 16 0x207A = some (.push 0x7A#8) := by decide
theorem test_decodeTableWord_illegal : decodeTableWord 16 0x1100 = none := by decide

/-- No two rows of the opcode table match one word. -/
theorem test_opcode_rows_do_not_overlap :
    opcodeTable.Pairwise fun a b => a.bitsSet &&& (a.mask &&& b.mask) ≠ b.bitsSet &&& (a.mask &&& b.mask) := by decide

/-- The rows of the opcode table are the words that the encoder writes. -/
theorem test_opcode_rows_cover_the_encodings :
    ([Instr.clr, .push 0x7A#8, .build, .pop, .rewind].zip opcodeTable).all (fun p => p.2.covers (encode p.1)) = true := by decide

/-! ### The table of R54: some of its rows -/

theorem test_exp8_o : exp8 0x6F#8 = bits [0, 1, 1, 0, 1, 1, 1, 1] ∧ popcount 0x6F#8 = 6 ∧ codeParity 0x6F#8 = false := by decide
theorem test_exp8_O : exp8 0x4F#8 = bits [0, 1, 0, 0, 1, 1, 1, 1] ∧ popcount 0x4F#8 = 5 ∧ codeParity 0x4F#8 = true := by decide
theorem test_exp8_0 : exp8 0x30#8 = bits [0, 0, 1, 1, 0, 0, 0, 0] ∧ popcount 0x30#8 = 2 ∧ codeParity 0x30#8 = false := by decide

/-- The boundary codes of R58. -/
theorem test_allowed_boundaries :
    [0x30#8, 0x39#8, 0x41#8, 0x5A#8, 0x61#8, 0x7A#8].all allowed = true ∧
    [0x00#8, 0x2F#8, 0x3A#8, 0x40#8, 0x5B#8, 0x60#8, 0x7B#8, 0x7F#8, 0x80#8, 0xC1#8, 0xFF#8].any allowed = false := by decide

/-! ### One step per command: at most two tests for each -/

/-- Section L2.2: CLR of a READY block. -/
theorem test_clr_in_ready :
    nextSatisfies (step (readyAB 17 [.command 0x1000#16])) (fun t =>
      t.resp == some 0x00#8 && t.blk == { Block.atReset with pbuf := listed payloadAB }) = true := by decide

/-- Section L2.3: PUSH of `z` right after reset. -/
theorem test_push_z_from_reset :
    nextSatisfies (step (State.reset.withFetchWord 16 0x207A)) (fun t =>
      t.resp == some 0x00#8 && t.blk.cc == 1 && t.blk.p1 && t.blk.rawpar && payload t.blk == bits [0, 1, 1, 1, 1, 0, 1, 0]) = true := by
  decide

/-- Section L2.6: a disallowed code at capacity is DROP. -/
theorem test_push_drop_at_capacity :
    nextSatisfies (step (fullA [.command 0x2021#16])) (fun t =>
      t.resp == some 0x01#8 && t.blk == accumBlock payloadA false false) = true := by decide

/-- Section L2.4: the trailer and the length of the frame of "A". -/
theorem test_build_A :
    nextSatisfies (exec .build (accumA [])) (fun t =>
      t.resp == some 0x00#8 && t.blk == readyBlock payloadA false true true 0 && t.blk.flen == 35) = true := by decide

/-- Section L2.4, `A-B`: under `PUSHED` the trailer is `01` where `ACCEPTED` gives `00`. -/
theorem test_build_pushed :
    nextSatisfies (exec .build (instanceOf { refcfg with p2Source := .pushed } (accumBlock payloadAB false true) [])) (fun t =>
      !t.blk.t1 && t.blk.t2 && t.blk.flen == 43) = true := by decide

/-- Section L2.5: the second POP of the frame of "AB" answers bit 1. -/
theorem test_pop_second_bit :
    nextSatisfies (step (readyAB 1 [.command 0x4000#16])) (fun t => t.resp == some 0x10#8 && t.blk.rdIdx == 2) = true := by decide

/-- Section L2.5: a POP after the last bit. -/
theorem test_pop_drained :
    nextSatisfies (step (readyAB 43 [.command 0x4000#16])) (fun t => t.resp == some 0x05#8 && t.blk.rdIdx == 43) = true := by decide

/-- Section L2.5: REWIND at the end of the frame. -/
theorem test_rewind :
    nextSatisfies (step (readyAB 43 [.command 0x5000#16])) (fun t => t.resp == some 0x00#8 && t.blk.rdIdx == 0) = true := by decide

/-- Section L2.6: in READY an illegal word is ILLEGAL. -/
theorem test_illegal_in_ready :
    nextSatisfies (step (readyAB 0 [.command 0x3001#16])) (fun t => t == { readyAB 0 [] with resp := some 0x06#8 }) = true := by decide

/-- Section L1 item 3. -/
theorem test_frame_AB : frameRef refcfg [0x41#8, 0x42#8] = some frameAB ∧ frameOf refcfg (readyAB 0 []).blk = frameAB := by decide

/-- Section L2.7: the frame of "AB", its first 30 bits, with its first payload bit flipped, and after a tail of another frame. -/
theorem test_scan :
    scanRef refcfg frameAB = .decoded [0x41#8, 0x42#8] ∧ scanRef refcfg (frameAB.take 30) = .pending ∧
    scanRef refcfg (frameAB.set 12 true) = .invalid ∧
    scanRef refcfg (frameAB.drop 20 ++ frameAB) = .decoded [0x41#8, 0x42#8] := by decide

/-- Section L1 item 10: an all-1s byte is not isolated, an all-0s byte is. -/
theorem test_scan_hand_made :
    scanRef refcfg (refcfg.sm ++ exp8 0xFF#8 ++ bits [0, 1] ++ refcfg.em) = .invalid ∧
    scanRef refcfg (refcfg.sm ++ exp8 0x00#8 ++ bits [0, 1] ++ refcfg.em) = .decoded [0x00#8] := by decide

/-! ### Good states that the witnesses use -/

theorem holdsA (blk : Block) (h : blk.pbuf = listed payloadA) : ∀ k < 1, ∃ c, allowed c = true ∧ holdsCode blk k c := by
  intro k hk
  obtain rfl : k = 0 := Nat.lt_one_iff.1 hk
  refine ⟨0x41#8, by decide, ?_⟩
  unfold holdsCode
  rw [h]
  decide

theorem accumBlockA_inv (n : Nat) (hn : 1 ≤ n) :
    Block.Inv { refcfg with maxChars := n } (accumBlock payloadA false true) :=
  ⟨⟨by decide, fun e he => Nat.lt_of_lt_of_le ((show ∀ e ∈ listed payloadA, e.1 < 8 by decide) e he)
      (by simp only [Config.cells]; omega), hn, holdsA _ rfl, by decide⟩,
    fun _ => ⟨rfl, rfl, rfl, rfl⟩, fun h => nomatch h⟩

theorem readyBlockA_inv (n : Nat) (hn : n ≤ 35) : Block.Inv refcfg (readyBlock payloadA false true true n) :=
  ⟨⟨show PayloadBuffer.wf (listed payloadA) by decide, show ∀ e ∈ listed payloadA, e.1 < refcfg.cells by decide,
      show 1 ≤ 16 by decide, holdsA _ rfl, show false = parity ((List.range 8).filterMap (cellAt (listed payloadA))) by decide⟩,
    fun h => (nomatch h), fun _ => ⟨Nat.le_refl 1, show 35 = refcfg.ls + 8 * 1 + 2 + refcfg.le by decide, hn, rfl,
      show true = countParity 1 by decide⟩⟩

theorem emptyState_inv (pending : List HostEvent) : (emptyState pending).Inv :=
  ⟨show refcfg.wf = true by decide, Machine.Block.Inv.mk
    ⟨List.Pairwise.nil, fun _ h => (nomatch h), Nat.zero_le _, fun _ h => (nomatch h), rfl⟩
    (fun _ => ⟨rfl, rfl, rfl, rfl⟩) (fun h => nomatch h)⟩

theorem emptySmall_inv : (State.resetWith smallcfg).Inv :=
  ⟨by decide, Machine.Block.Inv.mk
    ⟨List.Pairwise.nil, fun _ h => (nomatch h), Nat.zero_le _, fun _ h => (nomatch h), rfl⟩
    (fun _ => ⟨rfl, rfl, rfl, rfl⟩) (fun h => nomatch h)⟩

theorem accumA_inv (pending : List HostEvent) : (accumA pending).Inv :=
  ⟨show refcfg.wf = true by decide, accumBlockA_inv 16 (by decide)⟩

theorem fullA_inv (pending : List HostEvent) : (fullA pending).Inv :=
  ⟨show smallcfg.wf = true by decide, accumBlockA_inv 1 (by decide)⟩

theorem readyA_inv (n : Nat) (hn : n ≤ 35) (pending : List HostEvent) : (readyA n pending).Inv :=
  ⟨show refcfg.wf = true by decide, readyBlockA_inv n hn⟩

/-! ### Witnesses: for each statement with hypotheses, inputs that meet them, clause by clause -/

theorem witness_ExactlyTheLegalWordsDecode :
    decode 0x2000#16 = .ok (.push 0x00#8) ∧ decode 0x20FF#16 = .ok (.push 0xFF#8) ∧ 0x20FF#16 &&& 0xFF00#16 = 0x2000#16 := by
  decide

/-- One word for each way of being illegal, at the ends of the ranges. -/
theorem witness_IllegalWordChangesNothing :
    refcfg.wf = true ∧ (emptyState [.command 0x0FFF#16]).pending = [.command 0x0FFF#16] ∧
    (opField 0x0000#16).toNat = 0 ∧ 6 ≤ (opField 0x6000#16).toNat ∧ 6 ≤ (opField 0xF000#16).toNat ∧ rsvField 0x2141#16 ≠ 0#4 ∧
    (opField 0x5080#16 ≠ 0x2#4 ∧ dataField 0x5080#16 ≠ 0#8) := by decide

theorem witness_StepRunsTheDecodedCommand :
    (accumA [.command 0x2041#16, .reset]).pending = .command 0x2041#16 :: [.reset] ∧ decode 0x2041#16 = .ok (.push 0x41#8) := by
  decide

/-- A POP that answers a bit, a command that answers none, and an illegal word. -/
theorem witness_EveryCommandGetsOneResponse :
    (readyA 34 [.command 0x4000#16]).Inv ∧ decode 0x4000#16 = .ok .pop ∧
    nextSatisfies (step (readyA 34 [.command 0x4000#16])) (fun t => t.resp == some (responseWord .ok false)) = true ∧
    (emptyState [.command 0x2041#16]).Inv ∧ (emptyState [.command 0xFFFF#16]).Inv :=
  ⟨readyA_inv 34 (by decide) _, by decide, by decide, emptyState_inv _, emptyState_inv _⟩

theorem witness_CommandsAnswerOnlyTheirCodes :
    (∃ t, exec .clr (readyA 3 []) = .next t ∧ (t.resp == some 0x00#8) = true) ∧
    (∃ t, exec (.push 0x41#8) (fullA []) = .next t ∧ (t.resp == some 0x02#8) = true) ∧
    (∃ t, exec .build (accumA []) = .next t ∧ (t.resp == some 0x00#8) = true) ∧
    (∃ t, exec .pop (readyA 35 []) = .next t ∧ (t.resp == some 0x05#8) = true) ∧
    (∃ t, exec .rewind (readyA 35 []) = .next t ∧ (t.resp == some 0x00#8) = true) :=
  ⟨nextSatisfies_elim (by decide), nextSatisfies_elim (by decide), nextSatisfies_elim (by decide),
    nextSatisfies_elim (by decide), nextSatisfies_elim (by decide)⟩

/-- One step for each error code. -/
theorem witness_ErrorsAreTheOnlyRecordOfThemselves :
    (∃ t, step (fullA [.command 0x2041#16]) = .next t ∧ (t.resp == some (responseWord .full false)) = true) ∧
    (∃ t, step (emptyState [.command 0x3000#16]) = .next t ∧ (t.resp == some (responseWord .empty false)) = true) ∧
    (∃ t, step (accumA [.command 0x4000#16]) = .next t ∧ (t.resp == some (responseWord .badstate false)) = true) ∧
    (∃ t, step (readyA 35 [.command 0x4000#16]) = .next t ∧ (t.resp == some (responseWord .drained false)) = true) ∧
    (∃ t, step (readyA 35 [.command 0x6000#16]) = .next t ∧ (t.resp == some (responseWord .illegal false)) = true) :=
  ⟨nextSatisfies_elim (by decide), nextSatisfies_elim (by decide), nextSatisfies_elim (by decide),
    nextSatisfies_elim (by decide), nextSatisfies_elim (by decide)⟩

/-- One state and word for each cause. -/
theorem witness_EachCodeHasExactlyItsCause :
    (readyA 0 [.command 0x0000#16]).Inv ∧ ((readyA 0 [.command 0x2000#16]).Inv ∧ decode 0x2000#16 = .ok (.push 0x00#8)) ∧
    ((accumA [.command 0x5000#16]).Inv ∧ decode 0x5000#16 = .ok .rewind) ∧
    ((fullA [.command 0x2021#16]).Inv ∧ decode 0x2021#16 = .ok (.push 0x21#8) ∧ allowed 0x21#8 = false) ∧
    ((fullA [.command 0x2041#16]).Inv ∧ allowed 0x41#8 = true ∧ (fullA []).blk.cc = (fullA []).cfg.maxChars) ∧
    ((emptyState [.command 0x3000#16]).Inv ∧ (emptyState []).blk.cc = 0) ∧
    ((readyA 35 [.command 0x4000#16]).Inv ∧ (readyA 35 []).blk.rdIdx = (readyA 35 []).blk.flen) ∧
    (readyA 35 [.command 0x1000#16]).Inv :=
  ⟨readyA_inv 0 (by decide) _, ⟨readyA_inv 0 (by decide) _, by decide⟩, ⟨accumA_inv _, by decide⟩, ⟨fullA_inv _, by decide, by decide⟩,
    ⟨fullA_inv _, by decide, by decide⟩, ⟨emptyState_inv _, by decide⟩, ⟨readyA_inv 35 (by decide) _, by decide⟩,
    readyA_inv 35 (by decide) _⟩

theorem witness_ClrStartsAFreshMessage : (readyAB 17 []).cfg.wf = true := by decide

/-- The four paths of PUSH: READY, a code that is not allowed, no room, and the last free place. -/
theorem witness_PushFiltersExpandsAndAccumulates :
    ((readyA 0 []).cfg.wf = true ∧ (readyA 0 []).blk.mode = .ready) ∧
    ((fullA []).cfg.wf = true ∧ (fullA []).blk.mode = .accum ∧ allowed 0x40#8 = false) ∧
    (allowed 0x5A#8 = true ∧ (fullA []).blk.cc = (fullA []).cfg.maxChars) ∧
    ((State.resetWith smallcfg).cfg.wf = true ∧ (State.resetWith smallcfg).blk.mode = .accum ∧
      (State.resetWith smallcfg).blk.cc < (State.resetWith smallcfg).cfg.maxChars) := by decide

/-- The three paths of BUILD; the last also at capacity. -/
theorem witness_BuildLatchesTheTrailerAndTheFrame :
    (readyA 0 []).blk.mode = .ready ∧ ((emptyState []).blk.mode = .accum ∧ (emptyState []).blk.cc = 0) ∧
    ((fullA []).cfg.wf = true ∧ (fullA []).blk.mode = .accum ∧ (fullA []).blk.cc ≠ 0) := by decide

/-- The three paths of POP; the last at the last frame bit. -/
theorem witness_PopAnswersTheNextFrameBit :
    (accumA []).blk.mode = .accum ∧ ((readyA 35 []).blk.mode = .ready ∧ (readyA 35 []).blk.rdIdx = (readyA 35 []).blk.flen) ∧
    ((readyA 34 []).Inv ∧ (readyA 34 []).cfg.wf = true ∧ (readyA 34 []).blk.rdIdx < (readyA 34 []).blk.flen) :=
  ⟨rfl, by decide, readyA_inv 34 (by decide) _, by decide, by decide⟩

theorem witness_RewindRestartsTheFrame :
    ((accumA []).cfg.wf = true ∧ (accumA []).blk.mode = .accum) ∧ ((readyA 35 []).cfg.wf = true ∧ (readyA 35 []).blk.mode = .ready) := by
  decide

/-- A step for each of the three writers of `mode`. -/
theorem witness_ModeHasThreeWriters :
    (∃ t, step (readyA 2 [.reset]) = .next t ∧ (t.blk.mode != .ready) = true) ∧
    (∃ t, step (readyA 2 [.command 0x1000#16]) = .next t ∧ (t.blk.mode != .ready) = true) ∧
    (∃ t, step (accumA [.command 0x3000#16]) = .next t ∧ (t.blk.mode != .accum) = true) ∧
    (readyA 2 []).blk.mode = .ready ∧ (accumA []).blk.mode = .accum :=
  ⟨nextSatisfies_elim (by decide), nextSatisfies_elim (by decide), nextSatisfies_elim (by decide), rfl, rfl⟩

/-- A step that stores and one that does not. -/
theorem witness_OnlyAStoringPushWritesTheBuffer :
    (∃ t, step (accumA [.command 0x2042#16]) = .next t ∧ (cellAt t.blk.pbuf 15 != cellAt (accumA []).blk.pbuf 15) = true) ∧
    (∃ t, step (accumA [.reset]) = .next t ∧ (t.blk.pbuf == (accumA []).blk.pbuf) = true) :=
  ⟨nextSatisfies_elim (by decide), nextSatisfies_elim (by decide)⟩

theorem witness_AccumulatorsMoveOnlyAsTheirRulesSay :
    (∃ t, exec .clr (accumA []) = .next t ∧ (t.blk.cc == 0) = true) ∧
    (∃ t, exec (.push 0x61#8) (accumA []) = .next t ∧ (t.resp == some (responseWord .ok false)) = true) ∧
    (∃ t, exec (.push 0x2D#8) (accumA []) = .next t ∧ (t.resp == some (responseWord .drop false)) = true) ∧
    (∃ t, exec (.push 0x41#8) (fullA []) = .next t ∧
      (t.resp != some (responseWord .ok false) && t.resp != some (responseWord .drop false)) = true) ∧
    (∃ t, takeReset (accumA []) = .next t ∧ (t.blk.cc == 0) = true) :=
  ⟨nextSatisfies_elim (by decide), nextSatisfies_elim (by decide), nextSatisfies_elim (by decide),
    nextSatisfies_elim (by decide), nextSatisfies_elim (by decide)⟩

theorem witness_FrameFieldsMoveOnlyAsTheirRulesSay :
    (∃ t, exec .clr (readyA 9 []) = .next t ∧ (t.blk.flen == 0) = true) ∧
    (∃ t, exec .build (accumA []) = .next t ∧ (t.resp == some (responseWord .ok false)) = true) ∧
    (∃ t, exec .build (readyA 9 []) = .next t ∧ (t.resp != some (responseWord .ok false)) = true) ∧
    (∃ t, exec .pop (readyA 1 []) = .next t ∧ (t.resp == some (responseWord .ok true)) = true) ∧
    (∃ t, exec .rewind (readyA 9 []) = .next t ∧ (t.resp == some (responseWord .ok false)) = true) ∧
    (∃ t, exec .pop (readyA 35 []) = .next t ∧ (t.resp == some (responseWord .drained false)) = true) ∧
    (∃ t, takeReset (readyA 9 []) = .next t ∧ (t.blk.flen == 0) = true) :=
  ⟨nextSatisfies_elim (by decide), nextSatisfies_elim (by decide), nextSatisfies_elim (by decide), nextSatisfies_elim (by decide),
    nextSatisfies_elim (by decide), nextSatisfies_elim (by decide), nextSatisfies_elim (by decide)⟩

theorem witness_NoStepWritesTheConfiguration :
    ∃ t, step (fullA [.reset]) = .next t ∧ (t.cfg == smallcfg) = true := nextSatisfies_elim (by decide)

theorem witness_IllFormedConfigurationIsRefused : (illFormed [.command 0x1000#16]).cfg.wf = false := by decide

theorem witness_ResetPutsEveryFieldAtItsResetValue :
    (readyA 35 [.reset, .command 0x4000#16]).cfg.wf = true ∧
    (readyA 35 [.reset, .command 0x4000#16]).pending = .reset :: [.command 0x4000#16] := by decide

theorem witness_ResetAndClrLeaveTheSameState : (readyA 35 []).cfg.wf = true ∧ (fullA []).cfg.wf = true := by decide

/-- A command in flight that changes the block, and one that cannot. -/
theorem witness_ResetHidesTheCommandInFlight :
    (accumA [.command 0x2041#16, .reset]).Inv ∧ (readyA 35 [.command 0x4000#16, .reset]).Inv :=
  ⟨accumA_inv _, readyA_inv 35 (by decide) _⟩

theorem witness_ResetStateIsGood : refcfg.wf = true ∧ smallcfg.wf = true := by decide

theorem witness_EveryStepKeepsTheInvariant :
    ((accumA [.command 0x207A#16]).Inv ∧ ∃ t, step (accumA [.command 0x207A#16]) = .next t ∧ (t.blk.cc == 2) = true) ∧
    ((readyA 34 [.command 0x4000#16]).Inv ∧ ∃ t, step (readyA 34 [.command 0x4000#16]) = .next t ∧ (t.blk.rdIdx == 35) = true) :=
  ⟨⟨accumA_inv _, nextSatisfies_elim (by decide)⟩, ⟨readyA_inv 34 (by decide) _, nextSatisfies_elim (by decide)⟩⟩

theorem witness_GoodStatesAlwaysGoOn : (fullA [.command 0x2041#16]).Inv ∧ (readyA 35 []).Inv :=
  ⟨fullA_inv _, readyA_inv 35 (by decide) _⟩

theorem witness_NoFrameIsBuiltOfAnEmptyPayload :
    ((accumA [.command 0x3000#16]).Inv ∧ ∃ t, step (accumA [.command 0x3000#16]) = .next t ∧ (t.blk.mode == .ready) = true) ∧
    ((emptyState []).cfg.wf = true ∧ (emptyState []).blk.mode = .accum ∧ (emptyState []).blk.cc = 0) :=
  ⟨⟨accumA_inv _, nextSatisfies_elim (by decide)⟩, by decide⟩

/-- The shortest frame of `REFCFG`. -/
theorem witness_FrameLengthsAreBounded : (readyA 0 []).Inv ∧ (readyA 0 []).blk.mode = .ready ∧ (readyA 0 []).blk.flen = 35 :=
  ⟨readyA_inv 0 (by decide) _, rfl, rfl⟩

theorem witness_EveryFieldFitsItsWidth :
    (fullA []).Inv ∧ (readyA 35 []).Inv ∧ refcfg.maxChars + 1 ≤ 2 ^ 5 ∧
    refcfg.ls + 8 * refcfg.maxChars + 2 + refcfg.le + 1 ≤ 2 ^ 8 :=
  ⟨fullA_inv _, readyA_inv 35 (by decide) _, by decide, by decide⟩

/-- Two instances after CLR that differ in a cell that is not specified. -/
theorem witness_UnspecifiedCellsAreNeverSeen :
    let s := instanceOf refcfg (resetBlock (accumBlock payloadA false true)) [.command 0x207A#16]
    let s' := instanceOf refcfg Block.atReset [.command 0x207A#16]
    s.blk.pbuf ≠ s'.blk.pbuf ∧ s.cfg = s'.cfg ∧ s.pending = s'.pending ∧ s.resp = s'.resp ∧ s.blk.Agree s'.blk ∧
      (∃ t, step s = .next t ∧ (t.blk.cc == 1) = true) ∧ pbRead refcfg (accumA []).blk 7 = .ok true :=
  ⟨by decide, rfl, rfl, rfl, ⟨rfl, rfl, rfl, rfl, rfl, rfl, rfl, rfl, fun _ h => nomatch h⟩, nextSatisfies_elim (by decide), by decide⟩

/-- The first and the last bit of each part of the frame of "A", and the first index that is no frame bit. -/
theorem witness_FrameBitsFollowTheLayout :
    (readyA 0 []).blk.Inv refcfg ∧ (readyA 0 []).blk.mode = .ready ∧ (readyA 0 []).blk.flen = 35 ∧ refcfg.ls = 12 ∧
    ([0, 11, 12, 19, 20, 21, 22, 34].map fun i => (frameBit refcfg (readyA 0 []).blk i).toOption) =
      [some false, some true, some false, some true, some false, some true, some false, some false] ∧
    frameBit refcfg (readyA 0 []).blk 35 = .error .frameBitUndefined ∧ ((accumA []).blk.Inv refcfg ∧ (accumA []).blk.mode = .accum) :=
  ⟨readyBlockA_inv 0 (by decide), rfl, rfl, rfl, by decide, by decide, accumBlockA_inv 16 (by decide), rfl⟩

theorem witness_TheFrameIsStableInReady :
    (readyA 34 []).Inv ∧ (readyA 34 []).blk.mode = .ready ∧ encode .clr ∉ [0x4000#16, 0x4000#16, 0x5000#16, 0x2041#16, 0x1001#16] :=
  ⟨readyA_inv 34 (by decide) _, rfl, by decide⟩

/-- Before the first bit, and with the frame read out. -/
theorem witness_PopsHandOutTheFrameInOrder :
    ((readyA 0 []).Inv ∧ (readyA 0 []).blk.mode = .ready) ∧ ((readyA 35 []).Inv ∧ (readyA 35 []).blk.mode = .ready) :=
  ⟨⟨readyA_inv 0 (by decide) _, rfl⟩, ⟨readyA_inv 35 (by decide) _, rfl⟩⟩

theorem witness_CyclesRepeatTheFrame : (readyA 0 []).Inv ∧ (readyA 0 []).blk.mode = .ready ∧ (readyA 0 []).blk.rdIdx = 0 :=
  ⟨readyA_inv 0 (by decide) _, rfl, rfl⟩

/-- After CLR, after reset, and from the reset state; and a message that just fits. -/
theorem witness_PushesLeaveTheEncodedMessage :
    (∃ v, exec .clr (readyA 3 []) = .next v ∧ (v.blk.cc == 0) = true) ∧ (∃ v, takeReset (fullA []) = .next v ∧ (v.blk.cc == 0) = true) ∧
    smallcfg.wf = true ∧ acc [0x2D#8, 0x41#8] = smallcfg.maxChars :=
  ⟨nextSatisfies_elim (by decide), nextSatisfies_elim (by decide), by decide, by decide⟩

theorem witness_FilteringTwiceIsFilteringOnce :
    (readyA 3 []).cfg.wf = true ∧ filterAllowed [0x41#8, 0x2D#8, 0x42#8] ≠ [0x41#8, 0x2D#8, 0x42#8] := by decide

theorem witness_StoredCodesAreAppendedUnchanged :
    ((State.resetWith smallcfg).blk.mode = .accum ∧ allowed 0x7A#8 = true ∧ (State.resetWith smallcfg).blk.cc < smallcfg.maxChars) ∧
    (State.resetWith smallcfg).Inv ∧
    ((accumA []).Inv ∧ ∃ t, exec (.push 0x42#8) (accumA []) = .next t ∧
      (t.resp == some (responseWord .ok false) && payload t.blk == payloadAB) = true) ∧ (readyA 0 []).blk.Inv refcfg :=
  ⟨by decide, emptySmall_inv, ⟨accumA_inv _, nextSatisfies_elim (by decide)⟩, readyBlockA_inv 0 (by decide)⟩

/-- A message that fills the buffer, one whose codes are all dropped, and two texts with the same accepted codes. -/
theorem witness_TheStreamedFrameIsTheReferenceFrame :
    (fullA []).Inv ∧ (1 ≤ acc [0x41#8, 0x2D#8] ∧ acc [0x41#8, 0x2D#8] ≤ smallcfg.maxChars) ∧ acc [0x2D#8, 0x20#8] = 0 ∧
    refcfg.p2Source = .accepted ∧ filterAllowed [0x41#8, 0x2D#8, 0x42#8] = filterAllowed [0x41#8, 0x42#8] :=
  ⟨fullA_inv _, by decide, by decide, rfl, by decide⟩

theorem witness_AMessageIsSentAsItsReferenceFrame :
    (readyA 35 []).Inv ∧ 1 ≤ acc [0x7A#8] ∧ acc [0x7A#8] ≤ (readyA 35 []).cfg.maxChars :=
  ⟨readyA_inv 35 (by decide) _, by decide, by decide⟩

/-- The first and the last index of the expansion of `A`. -/
theorem witness_BitExpansionIsMostSignificantFirst :
    0 < 8 ∧ 7 < 8 ∧ (exp8 0x41#8)[0]? = some (codeBit 0x41#8 7) ∧ (exp8 0x41#8)[7]? = some true := by decide

theorem witness_DecodeRefUndoesEncodeRef :
    (bits [0, 1, 0, 0, 0, 0, 0]).length % 8 ≠ 0 ∧ payloadAB.length % 8 = 0 ∧ decodeRef payloadAB = .ok [0x41#8, 0x42#8] := by decide

/-- No `SM`; no `EM` after it; an `EM` one bit after it; and one two bits after it. -/
theorem witness_ScanRefFollowsTheLastMarkers :
    refcfg.wf = true ∧ lastOccurrence refcfg.sm [] = none ∧
    (lastOccurrence refcfg.sm refcfg.sm = some 0 ∧ lastOccurrence refcfg.em [] = none ∧ scanRef refcfg refcfg.sm = .pending) ∧
    (lastOccurrence refcfg.em (bits [0] ++ refcfg.em) = some 1 ∧ scanRef refcfg (refcfg.sm ++ bits [0] ++ refcfg.em) = .invalid) ∧
    (lastOccurrence refcfg.em (bits [0, 0] ++ refcfg.em) = some 2 ∧ scanRef refcfg (refcfg.sm ++ bits [0, 0] ++ refcfg.em) = .invalid) := by
  decide

/-- The shortest payload that passes, and the three ways to fail. -/
theorem witness_CheckRefValidatesThePayload :
    checkRef payloadA [false, true] = .decoded [0x41#8] ∧ checkRef payloadA [true, true] = .invalid ∧
    checkRef [] [false, false] = .invalid ∧ checkRef (payloadA.take 7) [true, false] = .invalid := by decide

/-- The shortest and the longest message. -/
theorem witness_TheReferenceReceiverAcceptsEveryFrame :
    (1 ≤ acc [0x41#8] ∧ acc [0x41#8] ≤ refcfg.maxChars) ∧
    (1 ≤ acc (List.replicate 16 0x6F#8) ∧ acc (List.replicate 16 0x6F#8) = refcfg.maxChars) := by
  refine ⟨by decide, ?_⟩
  simp [acc, filterAllowed, refcfg, show allowed 0x6F#8 = true by decide]

theorem witness_AnOddNumberOfDropsFailsTheScanUnderPushed :
    (1 ≤ acc [0x41#8, 0x2D#8, 0x42#8] ∧ acc [0x41#8, 0x2D#8, 0x42#8] ≤ refcfg.maxChars ∧
      [0x41#8, 0x2D#8, 0x42#8].length % 2 ≠ acc [0x41#8, 0x2D#8, 0x42#8] % 2) ∧ (∀ c ∈ [0x41#8, 0x42#8], allowed c = true) := by decide

theorem witness_TheBlockHoldsItsStateBetweenCommands : (readyA 3 []).cfg.wf = true ∧ (readyA 3 []).pending = [] := by decide

/-- The widest character that fits, and the narrowest that does not. -/
theorem witness_TheHostNeverTruncatesACharacter : hostCode 255 = 0xFF#8 ∧ hostCode 256 = 0x00#8 ∧ hostCode 0x141 = 0x00#8 := by decide

theorem witness_PseudoCommandsExpandAsTheirRulesSay :
    (∀ x ∈ ['A', 'B'], x.toNat ≤ 255) ∧ 255 < (Char.ofNat 256).toNat ∧
    assembleLine (.send ['z']) = .ok [0x1000#16, 0x207A#16, 0x3000#16] :=
  ⟨by simp, by decide, by decide⟩

theorem witness_AssemblerLinesReadAsWritten : 255 < (Char.ofNat 256).toNat := by decide

theorem witness_AConversationIsARunOfTheMachine :
    (match converse [0x1000#16, 0x3001#16, 0x2041#16] (readyA 3 []) with
      | .next (rs, u) => rs == [0x00#8, 0x06#8, 0x00#8] && u.blk.cc == 1
      | .fault _ | .refused _ => false) = true := by decide

end Sys2Proof.Tests
end

/-! PROOFS. When a configuration is well-formed, and what the model does under one that is not (spec/00_scope.md rule R6). -/

namespace Sys2Proof

/-! ### One equivalence for each condition of R6 -/

theorem Config.markersLongEnough_iff (cfg : Config) :
    cfg.markersLongEnough = true ↔ 8 ≤ cfg.sm.length ∧ 8 ≤ cfg.em.length :=
  Bool.and_eq_true_iff.trans (and_congr decide_eq_true_iff decide_eq_true_iff)

theorem Config.markersDistinct_iff (cfg : Config) : cfg.markersDistinct = true ↔ cfg.sm ≠ cfg.em :=
  bne_iff_ne

theorem Config.neitherBegins_iff (cfg : Config) :
    cfg.neitherBegins = true ↔ ¬ cfg.sm <+: cfg.em ∧ ¬ cfg.em <+: cfg.sm := by
  simp [Config.neitherBegins, ← List.isPrefixOf_iff_prefix]

theorem Config.hasCapacity_iff (cfg : Config) : cfg.hasCapacity = true ↔ 1 ≤ cfg.maxChars :=
  decide_eq_true_iff

/-- `WF(cfg)` is R6 (a) to (d). -/
theorem Config.wf_iff (cfg : Config) :
    cfg.wf = true ↔
      (8 ≤ cfg.sm.length ∧ 8 ≤ cfg.em.length) ∧ cfg.sm ≠ cfg.em ∧
        (¬ cfg.sm <+: cfg.em ∧ ¬ cfg.em <+: cfg.sm) ∧ 1 ≤ cfg.maxChars := by
  rw [← cfg.markersLongEnough_iff, ← cfg.markersDistinct_iff, ← cfg.neitherBegins_iff, ← cfg.hasCapacity_iff]
  simp only [Config.wf, Bool.and_eq_true, and_assoc]

namespace Machine

/-! ### Every operation is refused under a configuration that is not well-formed -/

theorem perform_of_not_wf {s : State} (h : s.cfg.wf = false) (f : Config → Block → Except Fault Answer) :
    perform s f = .refused .illFormedConfig :=
  configured_of_not_wf h _

theorem exec_of_not_wf {s : State} (h : s.cfg.wf = false) (i : Instr) : exec i s = .refused .illFormedConfig := by
  rw [exec_eq_perform]; exact perform_of_not_wf h _

/-- Taking an event from the ports leaves the configuration, so whichever of its four operations the step comes to, that one
refuses. -/
theorem step_of_not_wf {s : State} (h : s.cfg.wf = false) : step s = .refused .illFormedConfig := by
  cases hp : s.pending with
  | nil => rw [step_idle hp]; exact configured_of_not_wf h _
  | cons e rest =>
    have h' : ({ s with pending := rest } : State).cfg.wf = false := h
    cases e with
    | reset => rw [step_reset hp]; exact configured_of_not_wf h' _
    | command w =>
      cases hd : decode w with
      | ok i => rw [step_command hp hd]; exact exec_of_not_wf h' i
      | error e => rw [step_illegal hp hd]; exact perform_of_not_wf h' _

/-- Settles O20: the check is the conjunction of R6's four conditions, and a step refuses as every operation it comes to does. -/
theorem illFormedConfigurationIsRefused : Obligations.IllFormedConfigurationIsRefused :=
  ⟨Config.wf_iff, fun _ h => ⟨step_of_not_wf h, exec_of_not_wf h⟩⟩

end Machine
end Sys2Proof

/-! PROOFS. The state of the block: what shows it, what its reset values are, how wide its fields are, and who writes `mode`
(spec/10_state.md rules R14, R22, R27 and R28). -/

namespace Sys2Proof

/-! ### The widths of R28 -/

/-- The search that the model writes out finds Mathlib's ceiling logarithm, which is below `n + 1` because `n ≤ 2 ^ n`. -/
theorem ceilLog2_eq_clog (n : Nat) : ceilLog2 n = Nat.clog 2 n := by
  have hfind : (List.range (n + 1)).find? (fun w => decide (n ≤ 2 ^ w)) = some (Nat.clog 2 n) := by
    rw [List.find?_range_eq_some]
    refine ⟨decide_eq_true (Nat.le_pow_clog one_lt_two n), ?_, fun j hj => ?_⟩
    · have : Nat.clog 2 n ≤ n := Nat.clog_le_of_le_pow Nat.lt_two_pow_self.le
      exact List.mem_range.2 (by omega)
    · simpa using Nat.pow_lt_of_lt_clog hj
  simp [ceilLog2, hfind]

theorem ceilLog2_le {n k : Nat} (h : n ≤ 2 ^ k) : ceilLog2 n ≤ k :=
  ceilLog2_eq_clog n ▸ Nat.clog_le_of_le_pow h

/-- A value up to `n` fits the width of `n + 1` values. -/
theorem lt_two_pow_ceilLog2 {m n : Nat} (h : m ≤ n) : m < 2 ^ ceilLog2 (n + 1) := by
  have : n + 1 ≤ 2 ^ ceilLog2 (n + 1) := ceilLog2_eq_clog (n + 1) ▸ Nat.le_pow_clog one_lt_two (n + 1)
  omega

theorem Config.frameLength_mono (cfg : Config) {m n : Nat} (h : m ≤ n) : cfg.frameLength m ≤ cfg.frameLength n := by
  simp only [Config.frameLength]; omega

namespace Machine

/-! ### The ranges of the fields in a good state -/

/-- No frame in ACCUM; in READY the frame of `cc ≤ MAX_CHARS` characters. -/
theorem Block.Inv.flen_le {cfg : Config} {blk : Block} (h : blk.Inv cfg) : blk.flen ≤ cfg.frameLength cfg.maxChars := by
  cases hm : blk.mode with
  | accum => rw [(h.accum hm).noFrame]; exact Nat.zero_le _
  | ready => rw [(h.ready hm).frameLength]; exact cfg.frameLength_mono h.payload.fits

theorem Block.Inv.rdIdx_le_flen {cfg : Config} {blk : Block} (h : blk.Inv cfg) : blk.rdIdx ≤ blk.flen := by
  cases hm : blk.mode with
  | accum => rw [(h.accum hm).notReading]; exact Nat.zero_le _
  | ready => exact (h.ready hm).inFrame

/-- Settles O30: the fields lie in their ranges by the invariant, and a width is the ceiling logarithm of the size of its range. -/
theorem everyFieldFitsItsWidth : Obligations.EveryFieldFitsItsWidth := by
  refine ⟨fun s hs => ?_, fun cfg k h => ceilLog2_le h, fun cfg k h => ceilLog2_le h, by decide, by decide⟩
  have hcc := hs.block.payload.fits
  have hrd := hs.block.rdIdx_le_flen
  have hfl := hs.block.flen_le
  exact ⟨lt_two_pow_ceilLog2 hcc, lt_two_pow_ceilLog2 hfl, lt_two_pow_ceilLog2 (hrd.trans hfl), hcc, hrd, hfl⟩

/-! ### The writers of `mode` -/

/-- What each command does to `mode`: only CLR and a BUILD that answers OK write it. -/
theorem effectOf_mode {i : Instr} {cfg : Config} {blk : Block} {a : Answer} (h : effectOf i cfg blk = .ok a) :
    a.blk.mode = blk.mode ∨ (i = .clr ∧ a.blk.mode = .accum) ∨
      (i = .build ∧ a.code = .ok ∧ a.bit = false ∧ a.blk.mode = .ready) := by
  cases i with
  | clr => rw [clrEffect_ok h]; exact .inr (.inl ⟨rfl, rfl⟩)
  | push c => rcases pushEffect_ok h with ⟨-, rfl⟩ | ⟨-, -, rfl⟩ | ⟨-, -, -, rfl⟩ | ⟨-, -, -, _, -, rfl⟩ <;> exact .inl rfl
  | build =>
    rcases buildEffect_ok h with ⟨-, rfl⟩ | ⟨-, -, rfl⟩ | ⟨-, -, rfl⟩
    · exact .inl rfl
    · exact .inl rfl
    · exact .inr (.inr ⟨rfl, rfl, rfl, rfl⟩)
  | pop => rcases popEffect_ok h with ⟨-, rfl⟩ | ⟨-, -, rfl⟩ | ⟨-, -, _, -, rfl⟩ <;> exact .inl rfl
  | rewind => rcases rewindEffect_ok h with ⟨-, rfl⟩ | ⟨-, rfl⟩ <;> exact .inl rfl

/-- A step that changes `mode` is a reset, a CLR, or a BUILD that answers OK. -/
theorem step_mode {s t : State} (h : step s = .next t) (hne : t.blk.mode ≠ s.blk.mode) :
    (∃ rest, s.pending = .reset :: rest ∧ t.blk.mode = .accum) ∨
    (∃ w rest, s.pending = .command w :: rest ∧
      ((decode w = .ok .clr ∧ t.blk.mode = .accum) ∨
       (decode w = .ok .build ∧ t.resp = some (responseWord .ok false) ∧ t.blk.mode = .ready))) := by
  obtain ⟨-, ⟨-, rfl⟩ | ⟨rest, hp, rfl⟩ | ⟨w, rest, i, a, hp, hd, ha, rfl⟩ | ⟨w, rest, e, hp, hd, rfl⟩⟩ := step_next h
  · exact absurd rfl hne
  · exact .inl ⟨rest, hp, rfl⟩
  · refine .inr ⟨w, rest, hp, ?_⟩
    rcases effectOf_mode ha with hm | ⟨rfl, hm⟩ | ⟨rfl, hcode, hbit, hm⟩
    · exact absurd hm hne
    · exact .inl ⟨hd, hm⟩
    · exact .inr ⟨hd, by simp [hcode, hbit], hm⟩
  · exact absurd rfl hne

/-! ### Commands that do not act in the current mode -/

theorem pushEffect_of_ready {cfg : Config} {blk : Block} (hm : blk.mode = .ready) (c : Code) :
    effectOf (.push c) cfg blk = .ok ⟨blk, .badstate, false⟩ := by
  simp [effectOf, pushEffect, raise, respond, hm]

theorem buildEffect_of_ready {cfg : Config} {blk : Block} (hm : blk.mode = .ready) :
    effectOf .build cfg blk = .ok ⟨blk, .badstate, false⟩ := by
  simp [effectOf, buildEffect, raise, respond, hm]

theorem popEffect_of_accum {cfg : Config} {blk : Block} (hm : blk.mode = .accum) :
    effectOf .pop cfg blk = .ok ⟨blk, .badstate, false⟩ := by
  simp [effectOf, popEffect, raise, respond, hm]

theorem rewindEffect_of_accum {cfg : Config} {blk : Block} (hm : blk.mode = .accum) :
    effectOf .rewind cfg blk = .ok ⟨blk, .badstate, false⟩ := by
  simp [effectOf, rewindEffect, raise, respond, hm]

/-- Settles O15: the writers of `mode` by the step lemma; and in the other mode each of the four commands raises BADSTATE. -/
theorem modeHasThreeWriters : Obligations.ModeHasThreeWriters := by
  refine ⟨fun s t => step_mode, ?_, ?_⟩
  · rintro s hc hm i (rfl | ⟨c, rfl⟩)
    · exact exec_of_ok hc (buildEffect_of_ready hm)
    · exact exec_of_ok hc (pushEffect_of_ready hm c)
  · rintro s hc hm i (rfl | rfl)
    · exact exec_of_ok hc (popEffect_of_accum hm)
    · exact exec_of_ok hc (rewindEffect_of_accum hm)

/-! ### The reset values -/

/-- With no character accepted every cell lies at `8*cc` or above, and `PbRead` gives no value for it (R15, R31). -/
theorem pbRead_ne_ok_of_cc_eq_zero {blk : Block} (h : blk.cc = 0) (cfg : Config) (k : Nat) (b : Bit) :
    pbRead cfg blk k ≠ .ok b := by
  intro hr
  obtain ⟨-, hk, -⟩ := pbRead_ok_iff.1 hr
  omega

/-- Settles O22: every field is the literal that `Block.atReset` sets, and `cc = 0` leaves no cell to read. -/
theorem theResetStateHoldsTheResetValues : Obligations.TheResetStateHoldsTheResetValues := fun cfg =>
  ⟨rfl, rfl, rfl, rfl, rfl, rfl, rfl, rfl, rfl, rfl, rfl, rfl, rfl, rfl, pbRead_ne_ok_of_cc_eq_zero rfl cfg⟩

/-! ### The status outputs -/

theorem modeValue_eq_one_iff {m : Mode} : modeValue m = 1#1 ↔ m = .ready := by
  cases m <;> decide

theorem modeValue_eq_zero_iff {m : Mode} : modeValue m = 0#1 ↔ m = .accum := by
  cases m <;> decide

/-- Settles O48: `STAT_MODE` is the value of `mode`, and the other three outputs are the fields themselves. -/
theorem statusOutputsShowTheState : Obligations.StatusOutputsShowTheState := fun _ =>
  ⟨modeValue_eq_one_iff, modeValue_eq_zero_iff, rfl, rfl, rfl⟩

end Machine
end Sys2Proof

/-! PROOFS. The cells of the payload buffer at `8*cc` and above are never seen (spec/20_memory.md rule R31): blocks that agree below
`8*cc` answer every command alike, and agree after it. -/

namespace Sys2Proof.Machine

/-! ### What each command does, one equation for each of its answers -/

theorem pushEffect_of_not_allowed {cfg : Config} {blk : Block} {c : Code} (hm : blk.mode = .accum) (ha : allowed c = false) :
    effectOf (.push c) cfg blk = .ok ⟨{ blk with rawpar := !blk.rawpar }, .drop, false⟩ := by
  simp [effectOf, pushEffect, respond, hm, ha]

theorem pushEffect_of_full {cfg : Config} {blk : Block} {c : Code} (hm : blk.mode = .accum) (ha : allowed c = true)
    (hc : blk.cc = cfg.maxChars) : effectOf (.push c) cfg blk = .ok ⟨blk, .full, false⟩ := by
  simp [effectOf, pushEffect, raise, respond, hm, ha, hc]

theorem pushEffect_of_pbWriteBits {cfg : Config} {blk : Block} {c : Code} {cells : PayloadBuffer} (hm : blk.mode = .accum)
    (ha : allowed c = true) (hc : blk.cc ≠ cfg.maxChars) (hw : pbWriteBits cfg blk.pbuf (8 * blk.cc) (exp8 c) = .ok cells) :
    effectOf (.push c) cfg blk =
      .ok ⟨{ blk with pbuf := cells, p1 := xor blk.p1 (codeParity c), cc := blk.cc + 1, rawpar := !blk.rawpar }, .ok, false⟩ := by
  simp [effectOf, pushEffect, respond, hm, ha, hc, hw]

theorem buildEffect_of_cc_eq_zero {cfg : Config} {blk : Block} (hm : blk.mode = .accum) (hc : blk.cc = 0) :
    effectOf .build cfg blk = .ok ⟨blk, .empty, false⟩ := by
  simp [effectOf, buildEffect, raise, respond, hm, hc]

theorem buildEffect_of_cc_ne_zero {cfg : Config} {blk : Block} (hm : blk.mode = .accum) (hc : blk.cc ≠ 0) :
    effectOf .build cfg blk =
      .ok ⟨{ blk with t1 := blk.p1, t2 := p2 cfg blk, flen := cfg.ls + 8 * blk.cc + 2 + cfg.le, rdIdx := 0, mode := .ready },
        .ok, false⟩ := by
  simp [effectOf, buildEffect, respond, hm, hc]

theorem popEffect_of_drained {cfg : Config} {blk : Block} (hm : blk.mode = .ready) (hr : blk.rdIdx = blk.flen) :
    effectOf .pop cfg blk = .ok ⟨blk, .drained, false⟩ := by
  simp [effectOf, popEffect, raise, respond, hm, hr]

theorem popEffect_of_frameBit {cfg : Config} {blk : Block} {b : Bit} (hm : blk.mode = .ready) (hr : blk.rdIdx ≠ blk.flen)
    (hb : frameBit cfg blk blk.rdIdx = .ok b) :
    effectOf .pop cfg blk = .ok ⟨{ blk with rdIdx := blk.rdIdx + 1 }, .ok, b⟩ := by
  simp [effectOf, popEffect, respond, hm, hr, hb]

theorem rewindEffect_of_ready {cfg : Config} {blk : Block} (hm : blk.mode = .ready) :
    effectOf .rewind cfg blk = .ok ⟨{ blk with rdIdx := 0 }, .ok, false⟩ := by
  simp [effectOf, rewindEffect, respond, hm]

/-! ### Blocks that agree read alike -/

theorem Block.Agree.pbRead_eq {blk blk' : Block} (h : blk.Agree blk') (cfg : Config) (i : Nat) :
    pbRead cfg blk i = pbRead cfg blk' i := by
  simp only [pbRead, ← h.cc]
  by_cases hi : 8 * blk.cc ≤ i
  · simp only [hi, if_true]
  · rw [h.cells i (not_le.1 hi)]

/-- `FB` reads `pbuf` through `PbRead` only. -/
theorem Block.Agree.frameBit_eq {blk blk' : Block} (h : blk.Agree blk') (cfg : Config) (i : Nat) :
    frameBit cfg blk i = frameBit cfg blk' i := by
  simp only [frameBit, h.mode, h.flen, h.cc, h.t1, h.t2, h.pbRead_eq]

theorem Block.Agree.p2_eq {blk blk' : Block} (h : blk.Agree blk') (cfg : Config) : p2 cfg blk = p2 cfg blk' := by
  simp only [p2, h.cc, h.rawpar]

/-! ### Writing into buffers that agree -/

/-- Whether a bit string can be written depends on where it goes, not on what the buffer holds. -/
theorem pbWriteBits_succeeds_of_ok {cfg : Config} {buf cells : PayloadBuffer} {i : Nat} {s : BitString}
    (h : pbWriteBits cfg buf i s = .ok cells) (buf' : PayloadBuffer) : ∃ cells', pbWriteBits cfg buf' i s = .ok cells' := by
  induction s generalizing buf buf' i with
  | nil => exact ⟨buf', rfl⟩
  | cons b s ih =>
    simp only [pbWriteBits] at h
    split at h
    · next buf1 hw =>
      obtain ⟨hi, -⟩ := pbWrite_ok hw
      obtain ⟨cells', hc⟩ := ih h (setCell buf' i b)
      exact ⟨cells', by simp [pbWriteBits, pbWrite, not_le.2 hi, hc]⟩
    · cases h

/-- Buffers that agree below `i`, with the same bit string written at `i`, agree up to its end: below `i` the write changes neither,
and from `i` on both hold the string. -/
theorem pbWriteBits_agree {cfg : Config} {buf buf' cells : PayloadBuffer} {i : Nat} {s : BitString}
    (hb : ∀ k < i, cellAt buf k = cellAt buf' k) (h : pbWriteBits cfg buf i s = .ok cells) :
    ∃ cells', pbWriteBits cfg buf' i s = .ok cells' ∧ ∀ k < i + s.length, cellAt cells k = cellAt cells' k := by
  obtain ⟨cells', h'⟩ := pbWriteBits_succeeds_of_ok h buf'
  obtain ⟨hs, hf, -, -⟩ := pbWriteBits_ok h
  obtain ⟨hs', hf', -, -⟩ := pbWriteBits_ok h'
  refine ⟨cells', h', fun k hk => ?_⟩
  rcases lt_or_ge k i with hlt | hge
  · rw [hf k (.inl hlt), hf' k (.inl hlt), hb k hlt]
  · obtain ⟨j, rfl⟩ := Nat.exists_eq_add_of_le hge
    rw [hs j (by omega), hs' j (by omega)]

/-! ### Blocks that agree answer alike -/

/-- Two answers show the same at the response port and leave blocks that agree. -/
structure Answer.Agree (a a' : Answer) : Prop where
  blk : a.blk.Agree a'.blk
  code : a.code = a'.code
  bit : a.bit = a'.bit

/-- With `cc = 0` no cell is specified, so any two blocks agree after reset, and after CLR, which writes the same fields. -/
theorem resetBlock_agree (blk blk' : Block) : (resetBlock blk).Agree (resetBlock blk') :=
  ⟨rfl, rfl, rfl, rfl, rfl, rfl, rfl, rfl, fun i hi => absurd hi (Nat.not_lt_zero i)⟩

section
variable {cfg : Config} {blk blk' : Block} {a : Answer}

theorem Block.Agree.push (hb : blk.Agree blk') {c : Code} (h : effectOf (.push c) cfg blk = .ok a) :
    ∃ a', effectOf (.push c) cfg blk' = .ok a' ∧ a.Agree a' := by
  rcases pushEffect_ok h with ⟨hm, rfl⟩ | ⟨hm, ha, rfl⟩ | ⟨hm, ha, hc, rfl⟩ | ⟨hm, ha, hc, cells, hw, rfl⟩ <;> rw [hb.mode] at hm
  · exact ⟨_, pushEffect_of_ready hm c, hb, rfl, rfl⟩
  · exact ⟨_, pushEffect_of_not_allowed hm ha, { hb with rawpar := congrArg not hb.rawpar }, rfl, rfl⟩
  · exact ⟨_, pushEffect_of_full hm ha (hb.cc ▸ hc), hb, rfl, rfl⟩
  · obtain ⟨cells', hw', hcells⟩ := pbWriteBits_agree hb.cells hw
    exact ⟨_, pushEffect_of_pbWriteBits hm ha (hb.cc ▸ hc) (hb.cc ▸ hw'),
      { hb with
        cc := congrArg (· + 1) hb.cc
        p1 := congrArg (xor · (codeParity c)) hb.p1
        rawpar := congrArg not hb.rawpar
        cells := hcells }, rfl, rfl⟩

theorem Block.Agree.build (hb : blk.Agree blk') (h : effectOf .build cfg blk = .ok a) :
    ∃ a', effectOf .build cfg blk' = .ok a' ∧ a.Agree a' := by
  rcases buildEffect_ok h with ⟨hm, rfl⟩ | ⟨hm, hc, rfl⟩ | ⟨hm, hc, rfl⟩ <;> rw [hb.mode] at hm
  · exact ⟨_, buildEffect_of_ready hm, hb, rfl, rfl⟩
  · exact ⟨_, buildEffect_of_cc_eq_zero hm (hb.cc ▸ hc), hb, rfl, rfl⟩
  · exact ⟨_, buildEffect_of_cc_ne_zero hm (hb.cc ▸ hc),
      { hb with
        mode := rfl
        t1 := hb.p1
        t2 := hb.p2_eq cfg
        flen := congrArg (cfg.ls + 8 * · + 2 + cfg.le) hb.cc
        rdIdx := rfl }, rfl, rfl⟩

theorem Block.Agree.pop (hb : blk.Agree blk') (h : effectOf .pop cfg blk = .ok a) :
    ∃ a', effectOf .pop cfg blk' = .ok a' ∧ a.Agree a' := by
  rcases popEffect_ok h with ⟨hm, rfl⟩ | ⟨hm, hr, rfl⟩ | ⟨hm, hr, b, hfb, rfl⟩ <;> rw [hb.mode] at hm
  · exact ⟨_, popEffect_of_accum hm, hb, rfl, rfl⟩
  · exact ⟨_, popEffect_of_drained hm (hb.rdIdx ▸ hb.flen ▸ hr), hb, rfl, rfl⟩
  · rw [hb.frameBit_eq, hb.rdIdx] at hfb
    exact ⟨_, popEffect_of_frameBit hm (hb.rdIdx ▸ hb.flen ▸ hr) hfb, { hb with rdIdx := congrArg (· + 1) hb.rdIdx }, rfl, rfl⟩

theorem Block.Agree.rewind (hb : blk.Agree blk') (h : effectOf .rewind cfg blk = .ok a) :
    ∃ a', effectOf .rewind cfg blk' = .ok a' ∧ a.Agree a' := by
  rcases rewindEffect_ok h with ⟨hm, rfl⟩ | ⟨hm, rfl⟩ <;> rw [hb.mode] at hm
  · exact ⟨_, rewindEffect_of_accum hm, hb, rfl, rfl⟩
  · exact ⟨_, rewindEffect_of_ready hm, { hb with rdIdx := rfl }, rfl, rfl⟩

theorem Block.Agree.effectOf (hb : blk.Agree blk') {i : Instr} (h : effectOf i cfg blk = .ok a) :
    ∃ a', Machine.effectOf i cfg blk' = .ok a' ∧ a.Agree a' := by
  cases i with
  | clr => rw [clrEffect_ok h]; exact ⟨_, rfl, resetBlock_agree blk blk', rfl, rfl⟩
  | push c => exact hb.push h
  | build => exact hb.build h
  | pop => exact hb.pop h
  | rewind => exact hb.rewind h

end

/-- Two states that differ at most in cells at `8*cc` and above take every step alike. -/
theorem step_agree {s s' t : State} (hcfg : s.cfg = s'.cfg) (hpending : s.pending = s'.pending) (hresp : s.resp = s'.resp)
    (hb : s.blk.Agree s'.blk) (h : step s = .next t) :
    ∃ t', step s' = .next t' ∧ t.cfg = t'.cfg ∧ t.pending = t'.pending ∧ t.resp = t'.resp ∧ t.blk.Agree t'.blk := by
  obtain ⟨hc, ⟨hp, rfl⟩ | ⟨rest, hp, rfl⟩ | ⟨w, rest, i, a, hp, hd, ha, rfl⟩ | ⟨w, rest, e, hp, hd, rfl⟩⟩ := step_next h <;>
    rw [hcfg] at hc <;> have hp' := hpending.symm.trans hp
  · exact ⟨s', step_idle_next hc hp', hcfg, hpending, hresp, hb⟩
  · exact ⟨_, step_reset_next hc hp', hcfg, rfl, rfl, resetBlock_agree _ _⟩
  · obtain ⟨a', ha', hblk, hcode, hbit⟩ := hb.effectOf ha
    exact ⟨_, step_command_next hc hp' hd (hcfg ▸ ha'), hcfg, rfl, by simp [hcode, hbit], hblk⟩
  · exact ⟨_, step_illegal_next hc hp' hd, hcfg, rfl, rfl, hb⟩

/-- Settles O31: `PbRead` answers below `8*cc` only, and agreement is a simulation, the cells above being overwritten before `cc` comes
to cover them. -/
theorem unspecifiedCellsAreNeverSeen : Obligations.UnspecifiedCellsAreNeverSeen := by
  refine ⟨fun cfg blk i b h => ?_, fun s s' t => step_agree⟩
  obtain ⟨-, hi, -⟩ := pbRead_ok_iff.1 h
  exact hi

end Sys2Proof.Machine

/-! PROOFS. Which words decode, and to what (spec/30_encoding.md rules R42 to R46 and R52): a command has one word, and the words of the
commands are the legal ones. -/

namespace Sys2Proof

/-! ### The decoder undoes the encoder -/

@[simp] theorem opField_encode (i : Instr) : opField (encode i) = i.op := opField_commandWord ..

@[simp] theorem rsvField_encode (i : Instr) : rsvField (encode i) = 0#4 := rsvField_commandWord ..

@[simp] theorem dataField_encode (i : Instr) : dataField (encode i) = i.data := dataField_commandWord ..

/-- A word is a command's as soon as its three fields are. -/
theorem eq_encode_of_fields {w : CommandWord} {i : Instr} (hr : rsvField w = 0#4) (ho : opField w = i.op)
    (hd : dataField w = i.data) : w = encode i := by
  rw [eq_commandWord hr, ho, hd, encode]

theorem withoutOperand_eq_ok_iff {w : CommandWord} {i j : Instr} :
    withoutOperand w j = .ok i ↔ dataField w = 0#8 ∧ j = i := by
  unfold withoutOperand
  split <;> simp [*]

@[simp] theorem decode_encode (i : Instr) : decode (encode i) = .ok i := by
  cases i <;> simp [decode, withoutOperand, Instr.op, Instr.data]

theorem eq_encode_of_withoutOperand {w : CommandWord} {i j : Instr} (hr : rsvField w = 0#4)
    (h : withoutOperand w j = .ok i) (ho : opField w = j.op) (hj : j.data = 0#8) : w = encode i := by
  obtain ⟨hd, rfl⟩ := withoutOperand_eq_ok_iff.1 h
  exact eq_encode_of_fields hr ho (hd.trans hj.symm)

theorem eq_encode_of_decode {w : CommandWord} {i : Instr} (h : decode w = .ok i) : w = encode i := by
  unfold decode at h
  split at h
  · cases h
  · next hr =>
    have hr : rsvField w = 0#4 := not_not.1 hr
    split at h
    · next ho => exact eq_encode_of_withoutOperand hr h ho rfl
    split at h
    · next ho => cases h; exact eq_encode_of_fields hr ho rfl
    split at h
    · next ho => exact eq_encode_of_withoutOperand hr h ho rfl
    split at h
    · next ho => exact eq_encode_of_withoutOperand hr h ho rfl
    split at h
    · next ho => exact eq_encode_of_withoutOperand hr h ho rfl
    · cases h

/-- Each command has one word, and each word that decodes is the word of one command. -/
theorem decode_eq_ok_iff {w : CommandWord} {i : Instr} : decode w = .ok i ↔ w = encode i :=
  ⟨eq_encode_of_decode, fun h => h ▸ decode_encode i⟩

theorem encode_injective : Function.Injective encode := fun i j h => by
  simpa using congrArg decode h

theorem decode_error_of_not_ok {w : CommandWord} (h : ¬ ∃ i, decode w = .ok i) : ∃ e, decode w = .error e := by
  cases hd : decode w with
  | ok i => exact absurd ⟨i, hd⟩ h
  | error e => exact ⟨e, rfl⟩

/-! ### The legal words -/

/-- `legal` is R45's sentence about the fields. -/
theorem legal_iff {w : CommandWord} :
    legal w = true ↔
      (1 ≤ (opField w).toNat ∧ (opField w).toNat ≤ 5) ∧ rsvField w = 0#4 ∧ (opField w = 0x2#4 ∨ dataField w = 0#8) := by
  simp only [legal, Bool.and_eq_true, Bool.or_eq_true, decide_eq_true_iff, and_assoc]

theorem legal_encode (i : Instr) : legal (encode i) = true := by
  cases i with
  | clr => exact Laws.EncodeLegal.clr
  | push c => exact Laws.EncodeLegal.push c
  | build => exact Laws.EncodeLegal.build
  | pop => exact Laws.EncodeLegal.pop
  | rewind => exact Laws.EncodeLegal.rewind

/-- Every `op` of the range is one of the five commands', and the operand rule is the one of its command. -/
theorem eq_encode_of_legal {w : CommandWord} (h : legal w = true) : ∃ i, w = encode i := by
  obtain ⟨⟨hlo, hhi⟩, hr, hdata⟩ := legal_iff.1 h
  have hop : opField w = 1#4 ∨ opField w = 2#4 ∨ opField w = 3#4 ∨ opField w = 4#4 ∨ opField w = 5#4 := by bv_omega
  have plain (i : Instr) (ho : opField w = i.op) (hne : i.op ≠ 2#4) (hi : i.data = 0#8) : ∃ i, w = encode i :=
    ⟨i, eq_encode_of_fields hr ho ((hdata.resolve_left (ho ▸ hne)).trans hi.symm)⟩
  rcases hop with ho | ho | ho | ho | ho
  · exact plain .clr ho (by decide) rfl
  · exact ⟨.push (dataField w), eq_encode_of_fields hr ho rfl⟩
  · exact plain .build ho (by decide) rfl
  · exact plain .pop ho (by decide) rfl
  · exact plain .rewind ho (by decide) rfl

theorem decode_ok_iff_legal {w : CommandWord} : (∃ i, decode w = .ok i) ↔ legal w = true := by
  simp only [decode_eq_ok_iff]
  exact ⟨fun ⟨i, h⟩ => h ▸ legal_encode i, eq_encode_of_legal⟩

/-! ### The words of PUSH -/

theorem encode_push_toNat (c : Code) : (encode (.push c)).toNat = 0x2000 + c.toNat := by
  revert c; decide

theorem decode_push_iff_range {w : CommandWord} :
    (∃ c, decode w = .ok (.push c)) ↔ 0x2000 ≤ w.toNat ∧ w.toNat ≤ 0x20FF := by
  simp only [decode_eq_ok_iff]
  constructor
  · rintro ⟨c, rfl⟩
    have := c.isLt
    rw [encode_push_toNat]
    omega
  · rintro ⟨hlo, hhi⟩
    refine ⟨BitVec.ofNat 8 (w.toNat - 0x2000), BitVec.eq_of_toNat_eq ?_⟩
    rw [encode_push_toNat, BitVec.toNat_ofNat]
    omega

/-- The mask of PUSH covers `op` and `rsv`. -/
theorem and_0xFF00_eq_iff {w : CommandWord} : w &&& 0xFF00#16 = 0x2000#16 ↔ opField w = 0x2#4 ∧ rsvField w = 0#4 := by
  constructor
  · intro h
    have ho : opField (w &&& 0xFF00#16) = opField w := by
      rw [opField, BitVec.extractLsb'_and]; exact BitVec.and_allOnes
    have hr : rsvField (w &&& 0xFF00#16) = rsvField w := by
      rw [rsvField, BitVec.extractLsb'_and]; exact BitVec.and_allOnes
    rw [← ho, ← hr, h]
    decide
  · rintro ⟨ho, hr⟩
    rw [eq_commandWord hr, ho]
    generalize dataField w = c
    revert c; decide

theorem decode_push_iff_mask {w : CommandWord} : (∃ c, decode w = .ok (.push c)) ↔ w &&& 0xFF00#16 = 0x2000#16 := by
  rw [and_0xFF00_eq_iff]
  simp only [decode_eq_ok_iff]
  constructor
  · rintro ⟨c, rfl⟩; exact ⟨opField_encode _, rsvField_encode _⟩
  · rintro ⟨ho, hr⟩; exact ⟨dataField w, eq_encode_of_fields hr ho rfl⟩

/-- A mask of all ones leaves the whole word to match. -/
theorem decode_iff_full_mask {w : CommandWord} {i : Instr} : decode w = .ok i ↔ w &&& 0xFFFF#16 = encode i := by
  rw [decode_eq_ok_iff, show w &&& 0xFFFF#16 = w from BitVec.and_allOnes]

/-! ### There are 260 of them -/

/-- Every command, once: the four without an operand, and a PUSH for each code. -/
def allInstrs : List Instr :=
  [.clr, .build, .pop, .rewind] ++ (List.finRange 256).map fun k => .push (BitVec.ofFin k)

theorem mem_allInstrs (i : Instr) : i ∈ allInstrs := by
  cases i with
  | push c => exact List.mem_append_right _ (List.mem_map.2 ⟨c.toFin, List.mem_finRange _, rfl⟩)
  | _ => simp [allInstrs]

theorem allInstrs_nodup : allInstrs.Nodup := by
  refine List.Nodup.append (by decide) ((List.nodup_finRange 256).map fun a b h => ?_) ?_
  · simpa using h
  · simp [List.Disjoint]

theorem allInstrs_length : allInstrs.length = 260 := by simp [allInstrs]

theorem mem_map_encode_allInstrs {w : CommandWord} : w ∈ allInstrs.map encode ↔ ∃ i, decode w = .ok i := by
  simp only [List.mem_map, mem_allInstrs, true_and, decode_eq_ok_iff, eq_comm (a := w)]

/-- Settles O2: the words that decode are the words of the commands, so each clause says which word or words those are. -/
theorem exactlyTheLegalWordsDecode : Obligations.ExactlyTheLegalWordsDecode :=
  ⟨fun _ => decode_ok_iff_legal.trans legal_iff, fun _ => decode_eq_ok_iff, fun _ => decode_push_iff_range,
    fun w c h => by rw [eq_encode_of_decode h, dataField_encode]; rfl,
    fun _ => decode_eq_ok_iff, fun _ => decode_eq_ok_iff, fun _ => decode_eq_ok_iff,
    fun _ => decode_iff_full_mask, fun _ => decode_push_iff_mask,
    fun _ => decode_iff_full_mask, fun _ => decode_iff_full_mask, fun _ => decode_iff_full_mask,
    allInstrs.map encode, allInstrs_nodup.map encode_injective, by rw [List.length_map, allInstrs_length],
    fun _ => mem_map_encode_allInstrs⟩

/-- Settles O1: the words are the encoder's, and so decode; each illegal word fails the test that its error names. -/
theorem sampleWordsDecodeAsWritten : Obligations.SampleWordsDecodeAsWritten :=
  ⟨⟨rfl, decode_encode .clr⟩, ⟨rfl, decode_encode (.push 0x41#8)⟩, ⟨rfl, decode_encode (.push 0x7A#8)⟩,
    ⟨rfl, decode_encode (.push 0x2D#8)⟩, ⟨rfl, decode_encode .build⟩, ⟨rfl, decode_encode .pop⟩, ⟨rfl, decode_encode .rewind⟩,
    by decide, by decide, by decide, by decide⟩

namespace Machine

/-- Settles O4: none of the words listed is legal, so the step answers the decoder's refusal. -/
theorem illegalWordChangesNothing : Obligations.IllegalWordChangesNothing := by
  intro s w rest hc hp hw
  have hill : ¬ ∃ i, decode w = .ok i := by
    rw [decode_ok_iff_legal, legal_iff]
    rintro ⟨⟨hlo, hhi⟩, hr, hdata⟩
    rcases hw with hw | hw | hw | hw | ⟨hop, hd⟩ | rfl
    · exact hw (decode_ok_iff_legal.2 (legal_iff.2 ⟨⟨hlo, hhi⟩, hr, hdata⟩))
    · omega
    · omega
    · exact hw hr
    · exact hdata.elim hop hd
    · exact absurd hlo (by decide)
  obtain ⟨e, he⟩ := decode_error_of_not_ok hill
  rw [step_illegal_next hc hp he, answer, responseWord_illegal]

end Machine
end Sys2Proof

/-! PROOFS. Every command is answered (spec/30_encoding.md rule R47): in a good state no command faults, and output bit 1 comes from POP
alone. -/

namespace Sys2Proof.Machine

/-! ### In a good state no command faults -/

theorem markerBit_of_lt {m : BitString} {i : Nat} (h : i < m.length) : ∃ b, markerBit m i = .ok b :=
  ⟨m[i], by simp [markerBit, h]⟩

/-- In READY every index below `flen` is that of a frame bit (R68). -/
theorem Block.Inv.frameBit_succeeds {cfg : Config} {blk : Block} (h : blk.Inv cfg) (hm : blk.mode = .ready) {i : Nat}
    (hi : i < blk.flen) : ∃ b, frameBit cfg blk i = .ok b := by
  have hfl := (h.ready hm).frameLength
  have hdef : ¬ (blk.mode ≠ .ready ∨ blk.flen ≤ i) := by simp [hm, hi]
  rw [frameBit, if_neg hdef]
  split
  · next hsm => exact markerBit_of_lt hsm
  split
  · obtain ⟨b, hb, -⟩ := h.payload.pbRead (i := i - cfg.ls) (by omega)
    exact ⟨b, hb⟩
  split
  · exact ⟨_, rfl⟩
  split
  · exact ⟨_, rfl⟩
  · exact markerBit_of_lt (show _ < cfg.le by omega)

/-- A good block with room has the eight cells of one more character. -/
theorem Block.PayloadInv.pbWriteBits_succeeds {cfg : Config} {blk : Block} (h : blk.PayloadInv cfg) (hc : blk.cc ≠ cfg.maxChars)
    (c : Code) : ∃ cells, pbWriteBits cfg blk.pbuf (8 * blk.cc) (exp8 c) = .ok cells := by
  have := h.fits
  exact Machine.pbWriteBits_succeeds _ (by rw [exp8_length, Config.cells]; omega)

/-- Every command answers in a good state. -/
theorem Block.Inv.effectOf_succeeds {cfg : Config} {blk : Block} (h : blk.Inv cfg) (i : Instr) :
    ∃ a, effectOf i cfg blk = .ok a := by
  cases hm : blk.mode with
  | accum =>
    cases i with
    | clr => exact ⟨_, rfl⟩
    | push c =>
      cases ha : allowed c with
      | false => exact ⟨_, pushEffect_of_not_allowed hm ha⟩
      | true =>
        by_cases hc : blk.cc = cfg.maxChars
        · exact ⟨_, pushEffect_of_full hm ha hc⟩
        · obtain ⟨cells, hw⟩ := h.payload.pbWriteBits_succeeds hc c
          exact ⟨_, pushEffect_of_pbWriteBits hm ha hc hw⟩
    | build =>
      by_cases hc : blk.cc = 0
      · exact ⟨_, buildEffect_of_cc_eq_zero hm hc⟩
      · exact ⟨_, buildEffect_of_cc_ne_zero hm hc⟩
    | pop => exact ⟨_, popEffect_of_accum hm⟩
    | rewind => exact ⟨_, rewindEffect_of_accum hm⟩
  | ready =>
    cases i with
    | clr => exact ⟨_, rfl⟩
    | push c => exact ⟨_, pushEffect_of_ready hm c⟩
    | build => exact ⟨_, buildEffect_of_ready hm⟩
    | pop =>
      by_cases hr : blk.rdIdx = blk.flen
      · exact ⟨_, popEffect_of_drained hm hr⟩
      · obtain ⟨b, hb⟩ := h.frameBit_succeeds hm (lt_of_le_of_ne h.rdIdx_le_flen hr)
        exact ⟨_, popEffect_of_frameBit hm hr hb⟩
    | rewind => exact ⟨_, rewindEffect_of_ready hm⟩

/-! ### The output bit -/

/-- The output bit is the next frame bit for a POP that answers OK, and 0 otherwise. -/
theorem effectOf_bit {i : Instr} {cfg : Config} {blk : Block} {a : Answer} (h : effectOf i cfg blk = .ok a) :
    (i = .pop ∧ a.code = .ok ∧ frameBit cfg blk blk.rdIdx = .ok a.bit) ∨ (¬ (i = .pop ∧ a.code = .ok) ∧ a.bit = false) := by
  cases i with
  | clr => rw [clrEffect_ok h]; simp
  | push c => rcases pushEffect_ok h with ⟨-, rfl⟩ | ⟨-, -, rfl⟩ | ⟨-, -, -, rfl⟩ | ⟨-, -, -, _, -, rfl⟩ <;> simp
  | build => rcases buildEffect_ok h with ⟨-, rfl⟩ | ⟨-, -, rfl⟩ | ⟨-, -, rfl⟩ <;> simp
  | pop =>
    rcases popEffect_ok h with ⟨-, rfl⟩ | ⟨-, -, rfl⟩ | ⟨-, -, b, hb, rfl⟩
    · simp
    · simp
    · exact .inl ⟨rfl, rfl, hb⟩
  | rewind => rcases rewindEffect_ok h with ⟨-, rfl⟩ | ⟨-, rfl⟩ <;> simp

/-- Settles O6: a legal word is answered because no command faults in a good state, an illegal one by ILLEGAL and bit 0. -/
theorem everyCommandGetsOneResponse : Obligations.EveryCommandGetsOneResponse := by
  intro s w rest hs hp
  cases hd : decode w with
  | error e =>
    obtain ⟨hcode, hbit, hzero⟩ := responseWord_fields .illegal false
    exact ⟨_, .illegal, _, step_illegal_next hs.cfgWf hp hd, rfl, rfl, hcode, hzero, by simp, fun _ => hbit⟩
  | ok i =>
    obtain ⟨a, ha⟩ := hs.block.effectOf_succeeds i
    obtain ⟨hcode, hbit, hzero⟩ := responseWord_fields a.code a.bit
    refine ⟨_, a.code, _, step_command_next hs.cfgWf hp hd ha, rfl, rfl, hcode, hzero, ?_⟩
    rw [hbit]
    simp only [Except.ok.injEq]
    rcases effectOf_bit ha with ⟨hi, hok, hfb⟩ | ⟨hno, hb⟩
    · exact ⟨fun _ _ => hfb, fun hno => absurd ⟨hi, hok⟩ hno⟩
    · exact ⟨fun hi hok => absurd ⟨hi, hok⟩ hno, fun _ => hb⟩

end Sys2Proof.Machine

/-! PROOFS. The expansions of the pseudo-commands (spec/30_encoding.md rule R51). -/

namespace Sys2Proof

theorem textWf_iff {text : List Char} : textWf text = true ↔ ∀ x ∈ text, x.toNat ≤ 255 := by
  simp only [textWf, List.all_eq_true, decide_eq_true_iff]

namespace Machine

theorem assembleLine_of_wf {line : AsmLine} (h : line.wf = true) : assembleLine line = .ok (lineWords line) := if_pos h

theorem assembleLine_of_not_wf {line : AsmLine} (h : ¬ line.wf = true) : assembleLine line = .error .outOfRange := if_neg h

/-- The assembler's PUSH of a character that fits in 8 bits is the host's. -/
theorem map_encode_push_eq_pushWords {text : List Char} (h : ∀ x ∈ text, x.toNat ≤ 255) :
    (text.map fun x => encode (.push (BitVec.ofNat 8 x.toNat))) = pushWords (text.map fun x => hostCode x.toNat) := by
  rw [pushWords, List.map_map]
  refine List.map_congr_left fun x hx => ?_
  rw [Function.comp_apply, hostCode, if_pos (h x hx)]

/-- Settles O51: a text that fits is well-formed and its words are the host's; one character above 255 makes it ill-formed. -/
theorem pseudoCommandsExpandAsTheirRulesSay : Obligations.PseudoCommandsExpandAsTheirRulesSay := by
  refine ⟨fun text h => ?_, rfl, fun n => rfl, fun text x hx hbig => ?_⟩
  · have hwf := textWf_iff.2 h
    refine ⟨(assembleLine_of_wf (line := .pushs text) hwf).trans ?_, (assembleLine_of_wf (line := .send text) hwf).trans ?_⟩
    · rw [lineWords, map_encode_push_eq_pushWords h]
    · rw [lineWords, map_encode_push_eq_pushWords h, messageWords]
  · have hwf : ¬ textWf text = true := fun h => absurd (textWf_iff.1 h x hx) (by omega)
    exact ⟨assembleLine_of_not_wf (line := .pushs text) hwf, assembleLine_of_not_wf (line := .send text) hwf⟩

end Machine
end Sys2Proof

/-! PROOFS. The character filter, the bit expansion and PUSH (spec/40_bitcodec.md rules R53 to R58): what a code's bits are, and PUSH
where there is room. -/

namespace Sys2Proof.Machine

/-! ### Codes and their bits -/

/-- `ALLOWED` is R53's three ranges. -/
theorem allowed_iff {c : Code} : allowed c = true ↔
    (0x30 ≤ c.toNat ∧ c.toNat ≤ 0x39) ∨ (0x41 ≤ c.toNat ∧ c.toNat ≤ 0x5A) ∨ (0x61 ≤ c.toNat ∧ c.toNat ≤ 0x7A) := by
  simp only [allowed, Bool.or_eq_true, Bool.and_eq_true, decide_eq_true_iff, or_assoc]

theorem codeBit_eq_div_mod (c : Code) (k : Nat) : codeBit c k = (c.toNat / 2 ^ k % 2 == 1) :=
  Nat.testBit_eq_decide_div_mod_eq

/-- All three ranges lie below 0x80. -/
theorem codeBit_seven_of_allowed {c : Code} (ha : allowed c = true) : codeBit c 7 = false := by
  have hlt : c.toNat < 2 ^ 7 := by
    rcases allowed_iff.1 ha with h | h | h <;> omega
  rw [codeBit_eq_div_mod, Nat.div_eq_of_lt hlt]
  rfl

/-- Settles O41: the filter is the disjunction of the three ranges, and the count is evaluated. -/
theorem theAllowedCodesAreLettersAndDigits : Obligations.TheAllowedCodesAreLettersAndDigits :=
  ⟨fun _ => allowed_iff, by decide⟩

/-- Settles O42: the bits of `EXP8` by position, and a bit of a code by division. -/
theorem bitExpansionIsMostSignificantFirst : Obligations.BitExpansionIsMostSignificantFirst :=
  ⟨fun c => ⟨exp8_length c, fun _ => exp8_getElem? c, fun k _ => codeBit_eq_div_mod c k⟩, by decide, by decide⟩

/-! ### The host's characters (R62) -/

theorem hostCode_of_gt {n : Nat} (h : 255 < n) : hostCode n = 0x00#8 := if_neg (by omega)

theorem hostCode_toNat {n : Nat} (h : n ≤ 255) : (hostCode n).toNat = n := by
  rw [hostCode, if_pos h, BitVec.toNat_ofNat]
  omega

theorem allowed_zero : allowed 0x00#8 = false := by decide

/-- Settles O50: a character is tested against 255 before its code is taken, and the words are a map over the text. -/
theorem theHostNeverTruncatesACharacter : Obligations.TheHostNeverTruncatesACharacter := by
  refine ⟨fun n h => ?_, fun n => hostCode_toNat, ?_, fun text => ⟨by simp [pushWords], fun k h => by simp [pushWords, h]⟩⟩
  · rw [hostCode_of_gt h]
    exact ⟨rfl, allowed_zero⟩
  · rw [hostCode_of_gt (by decide)]
    decide

/-! ### CLR and PUSH -/

/-- A command's next state with its response written as a word. -/
theorem exec_of_ok_word {s : State} {i : Instr} {a : Answer} {r : ResponseWord} (hc : s.cfg.wf = true)
    (h : effectOf i s.cfg s.blk = .ok a) (hr : responseWord a.code a.bit = r) :
    exec i s = .next { s with blk := a.blk, resp := some r } :=
  hr ▸ exec_of_ok hc h

/-- Settles O10: CLR has one answer, OK, whatever the block holds. -/
theorem clrStartsAFreshMessage : Obligations.ClrStartsAFreshMessage :=
  ⟨rfl, fun _ hc => exec_of_ok_word (i := .clr) hc rfl responseWord_ok⟩

/-- Below capacity the eight cells of one more character exist, so PUSH of an allowed code stores it. -/
theorem pushEffect_of_room {cfg : Config} {blk : Block} {c : Code} (hm : blk.mode = .accum) (ha : allowed c = true)
    (hc : blk.cc < cfg.maxChars) :
    ∃ cells, pbWriteBits cfg blk.pbuf (8 * blk.cc) (exp8 c) = .ok cells ∧
      effectOf (.push c) cfg blk =
        .ok ⟨{ blk with pbuf := cells, p1 := xor blk.p1 (codeParity c), cc := blk.cc + 1, rawpar := !blk.rawpar }, .ok, false⟩ := by
  obtain ⟨cells, hw⟩ := pbWriteBits_succeeds (cfg := cfg) blk.pbuf (i := 8 * blk.cc) (s := exp8 c)
    (by rw [exp8_length, Config.cells]; omega)
  exact ⟨cells, hw, pushEffect_of_pbWriteBits hm ha hc.ne hw⟩

/-- Settles O11: one equation of PUSH for each path; where it stores, the cells are what writing `EXP8(c)` at `8*cc` leaves. -/
theorem pushFiltersExpandsAndAccumulates : Obligations.PushFiltersExpandsAndAccumulates := by
  refine ⟨encode_push_toNat, fun s c hwf => ⟨fun hm => ?_, fun hm ha => ?_, fun hm ha hc => ?_, fun hm ha hc => ?_⟩⟩
  · exact exec_of_ok_word hwf (pushEffect_of_ready hm c) responseWord_badstate
  · exact exec_of_ok_word hwf (pushEffect_of_not_allowed hm ha) responseWord_drop
  · exact exec_of_ok_word hwf (pushEffect_of_full hm ha hc) responseWord_full
  · obtain ⟨cells, hw, he⟩ := pushEffect_of_room hm ha hc
    obtain ⟨hcode, hframe, -, -⟩ := pbWriteBits_ok hw
    refine ⟨cells, exec_of_ok_word hwf he responseWord_ok, fun j hj => ?_, hframe⟩
    rw [hcode j hj, exp8_getElem? c hj]

/-- PUSH answers OK only where it stored the code. -/
theorem pushEffect_stores_of_code_ok {cfg : Config} {blk : Block} {c : Code} {a : Answer} (h : effectOf (.push c) cfg blk = .ok a)
    (hok : a.code = .ok) : allowed c = true ∧ payload a.blk = payload blk ++ exp8 c := by
  rcases pushEffect_ok h with ⟨-, rfl⟩ | ⟨-, -, rfl⟩ | ⟨-, -, -, rfl⟩ | ⟨-, ha, -, cells, hw, rfl⟩
  · cases hok
  · cases hok
  · cases hok
  · exact ⟨ha, push_payload hw⟩

/-- Settles O38: a PUSH that stores appends `EXP8(c)`, and an allowed code is below 0x80. -/
theorem storedCodesAreAppendedUnchanged : Obligations.StoredCodesAreAppendedUnchanged := by
  refine ⟨fun s c hs hm ha hc => ?_, fun s t c hs h hresp => ?_, fun cfg blk hb => ?_⟩
  · obtain ⟨cells, hw, he⟩ := pushEffect_of_room hm ha hc
    exact ⟨_, exec_of_ok hs.cfgWf he, rfl, push_payload hw, codeBit_seven_of_allowed ha⟩
  · obtain ⟨-, a, ha, rfl⟩ := exec_next h
    obtain ⟨hcode, -⟩ := responseWord_inj.1 (Option.some.inj hresp)
    obtain ⟨hallowed, hpay⟩ := pushEffect_stores_of_code_ok ha hcode
    exact ⟨hpay, hallowed, codeBit_seven_of_allowed hallowed⟩
  · obtain ⟨d, hlen, hpay, hd⟩ := hb.payload.codes
    exact ⟨d, hlen, hpay, fun c hc => ⟨hd c hc, codeBit_seven_of_allowed (hd c hc)⟩⟩

end Sys2Proof.Machine

/-! PROOFS. Pushing a whole text after CLR or reset (spec/40_bitcodec.md rules R59 and R60). What R59 says of the block is kept by each
further PUSH, so it is proved by induction over the text. -/

namespace Sys2Proof.Machine

/-! ### Conversations made of commands -/

theorem step_issueFirst_encode (s : State) (i : Instr) : step (issueFirst s (encode i)) = exec i s :=
  step_command (s := issueFirst s (encode i)) rfl (decode_encode i)

theorem converse_encode_cons {s u : State} {i : Instr} {a : Answer} {ws : List CommandWord} {rs : List ResponseWord}
    (hc : s.cfg.wf = true) (h : effectOf i s.cfg s.blk = .ok a) (hr : converse ws (answer s a) = .next (rs, u)) :
    converse (encode i :: ws) s = .next (responseWord a.code a.bit :: rs, u) :=
  converse_cons ((step_issueFirst_encode s i).trans (exec_of_ok hc h)) hr

/-! ### One more code of the text -/

theorem filterAllowed_concat_of_allowed {c : Code} (ha : allowed c = true) (t : List Code) :
    filterAllowed (t ++ [c]) = filterAllowed t ++ [c] := by
  simp [filterAllowed, ha]

theorem filterAllowed_concat_of_not_allowed {c : Code} (ha : allowed c = false) (t : List Code) :
    filterAllowed (t ++ [c]) = filterAllowed t := by
  simp [filterAllowed, ha]

theorem acc_concat_of_allowed {c : Code} (ha : allowed c = true) (t : List Code) : acc (t ++ [c]) = acc t + 1 := by
  rw [acc, filterAllowed_concat_of_allowed ha, List.length_append, List.length_singleton, acc]

theorem acc_concat_of_not_allowed {c : Code} (ha : allowed c = false) (t : List Code) : acc (t ++ [c]) = acc t := by
  rw [acc, filterAllowed_concat_of_not_allowed ha, acc]

theorem countParity_succ (n : Nat) : countParity (n + 1) = !countParity n := by
  rcases Nat.mod_two_eq_zero_or_one n with h | h <;> simp [countParity, Nat.add_mod, h]

/-! ### The answers that `rawpar` counts -/

/-- An answer OK or DROP (R59). -/
def counted (r : ResponseWord) : Bool := r == responseWord .ok false || r == responseWord .drop false

/-- OK and DROP are the answers that are no error (R48). -/
@[simp] theorem counted_responseWord (code : RespCode) : counted (responseWord code false) = !isError code := by
  cases code <;> decide

/-- The parity of the number of answers OK or DROP. -/
def countedParity (rs : List ResponseWord) : Bit := countParity (rs.filter counted).length

theorem countedParity_concat_of_counted {r : ResponseWord} (h : counted r = true) (rs : List ResponseWord) :
    countedParity (rs ++ [r]) = !countedParity rs := by
  simp [countedParity, h, countParity_succ]

theorem countedParity_concat_of_not_counted {r : ResponseWord} (h : counted r = false) (rs : List ResponseWord) :
    countedParity (rs ++ [r]) = countedParity rs := by
  simp [countedParity, h]

/-- Where every answer counts, their number is what is counted. -/
theorem countedParity_of_all {rs : List ResponseWord} (h : ∀ r ∈ rs, counted r = true) :
    countedParity rs = countParity rs.length := by
  rw [countedParity, List.filter_eq_self.2 h]

/-! ### What the PUSHes so far have left -/

/-- R59's sentence about the block, with what carries it through the text: each code has its answer, and none is FULL while the accepted
codes fit. -/
structure Block.AfterPushes (cfg : Config) (t : List Code) (rs : List ResponseWord) (blk : Block) : Prop where
  holds : blk.HoldsMessage cfg t rs
  answered : rs.length = t.length
  noneRefused : acc t ≤ cfg.maxChars → ∀ r ∈ rs, counted r = true

/-- With nothing accumulated the block holds the empty message. -/
theorem Block.AfterPushes.nil {blk : Block} (hm : blk.mode = .accum) (hc : blk.cc = 0) (hp : blk.p1 = false)
    (hr : blk.rawpar = false) (cfg : Config) : blk.AfterPushes cfg [] [] where
  holds :=
    { mode := hm
      cc := by simp [hc, acc, filterAllowed]
      payload := by simp [payload, hc, filterAllowed]
      p1 := by simp [hp, filterAllowed]
      rawpar := hr }
  answered := rfl
  noneRefused _ r hr := absurd hr List.not_mem_nil

section
variable {cfg : Config} {t : List Code} {rs : List ResponseWord} {blk : Block} {c : Code}

/-- A code that is dropped: the accepted codes are those of before. -/
theorem Block.AfterPushes.drop (h : blk.AfterPushes cfg t rs) (ha : allowed c = false) :
    Block.AfterPushes cfg (t ++ [c]) (rs ++ [responseWord .drop false]) { blk with rawpar := !blk.rawpar } where
  holds :=
    { mode := h.holds.mode
      cc := by rw [acc_concat_of_not_allowed ha]; exact h.holds.cc
      payload := by rw [filterAllowed_concat_of_not_allowed ha]; exact h.holds.payload
      p1 := by rw [filterAllowed_concat_of_not_allowed ha]; exact h.holds.p1
      rawpar := (congrArg not h.holds.rawpar).trans (countedParity_concat_of_counted rfl rs).symm }
  answered := by simp [h.answered]
  noneRefused hfit := by
    rw [acc_concat_of_not_allowed ha] at hfit
    exact List.forall_mem_append.2 ⟨h.noneRefused hfit, by simp [isError]⟩

/-- A code for which there is no room: the message is cut before it. -/
theorem Block.AfterPushes.full (h : blk.AfterPushes cfg t rs) (ha : allowed c = true) (hfull : blk.cc = cfg.maxChars) :
    Block.AfterPushes cfg (t ++ [c]) (rs ++ [responseWord .full false]) blk := by
  have hcc := h.holds.cc
  have hle : cfg.maxChars ≤ acc t := by omega
  have hcut : (filterAllowed (t ++ [c])).take cfg.maxChars = (filterAllowed t).take cfg.maxChars := by
    rw [filterAllowed_concat_of_allowed ha, List.take_append_of_le_length hle]
  exact
    { holds :=
        { mode := h.holds.mode
          cc := by rw [acc_concat_of_allowed ha]; omega
          payload := by rw [hcut]; exact h.holds.payload
          p1 := by rw [hcut]; exact h.holds.p1
          rawpar := h.holds.rawpar.trans (countedParity_concat_of_not_counted rfl rs).symm }
      answered := by simp [h.answered]
      noneRefused := fun hfit => by rw [acc_concat_of_allowed ha] at hfit; omega }

/-- A code that is stored: none has been cut yet, and it ends the message. -/
theorem Block.AfterPushes.store (h : blk.AfterPushes cfg t rs) (ha : allowed c = true) (hroom : blk.cc < cfg.maxChars)
    {cells : PayloadBuffer} (hw : pbWriteBits cfg blk.pbuf (8 * blk.cc) (exp8 c) = .ok cells) :
    Block.AfterPushes cfg (t ++ [c]) (rs ++ [responseWord .ok false])
      { blk with pbuf := cells, p1 := xor blk.p1 (codeParity c), cc := blk.cc + 1, rawpar := !blk.rawpar } := by
  have hcc := h.holds.cc
  have hlt : acc t < cfg.maxChars := by omega
  have hgrow : (filterAllowed (t ++ [c])).take cfg.maxChars = (filterAllowed t).take cfg.maxChars ++ [c] := by
    rw [List.take_of_length_le (by rw [← acc, acc_concat_of_allowed ha]; omega),
      List.take_of_length_le (by rw [← acc]; omega), filterAllowed_concat_of_allowed ha]
  exact
    { holds :=
        { mode := h.holds.mode
          cc := by rw [acc_concat_of_allowed ha]; simp only; omega
          payload := by
            rw [hgrow, List.flatMap_append, List.flatMap_singleton, ← h.holds.payload]
            exact push_payload hw
          p1 := by
            rw [hgrow, List.flatMap_append, List.flatMap_singleton, ← parity_eq_count, parity_append, parity_exp8,
              parity_eq_count, ← h.holds.p1]
          rawpar := (congrArg not h.holds.rawpar).trans (countedParity_concat_of_counted rfl rs).symm }
      answered := by simp [h.answered]
      noneRefused := fun _ => List.forall_mem_append.2 ⟨h.noneRefused hlt.le, by simp [isError]⟩ }

/-- One PUSH more is answered, and leaves what R59 says of the text with its code. -/
theorem Block.AfterPushes.push (h : blk.AfterPushes cfg t rs) (c : Code) :
    ∃ a, effectOf (.push c) cfg blk = .ok a ∧ a.blk.AfterPushes cfg (t ++ [c]) (rs ++ [responseWord a.code a.bit]) := by
  have hm := h.holds.mode
  cases ha : allowed c with
  | false => exact ⟨_, pushEffect_of_not_allowed hm ha, h.drop ha⟩
  | true =>
    by_cases hfull : blk.cc = cfg.maxChars
    · exact ⟨_, pushEffect_of_full hm ha hfull, h.full ha hfull⟩
    · have hcc := h.holds.cc
      have hroom : blk.cc < cfg.maxChars := by omega
      obtain ⟨cells, hw, he⟩ := pushEffect_of_room hm ha hroom
      exact ⟨_, he, h.store ha hroom hw⟩

end

/-- Pushing a text after another goes on, and leaves what R59 says of the two together. -/
theorem Block.AfterPushes.converse {t₀ : List Code} {rs₀ : List ResponseWord} {s : State} (hwf : s.cfg.wf = true)
    (h : s.blk.AfterPushes s.cfg t₀ rs₀) (t : List Code) :
    ∃ rs u, Machine.converse (pushWords t) s = .next (rs, u) ∧ u.blk.AfterPushes s.cfg (t₀ ++ t) (rs₀ ++ rs) := by
  induction t generalizing s t₀ rs₀ with
  | nil => exact ⟨[], s, rfl, by simpa using h⟩
  | cons c t ih =>
    obtain ⟨a, ha, hnext⟩ := h.push c
    obtain ⟨rs, u, hu, hend⟩ := ih (s := answer s a) hwf hnext
    refine ⟨_, u, converse_encode_cons hwf ha hu, ?_⟩
    simpa using hend

/-- CLR, reset and the reset state leave the block with nothing accumulated. -/
theorem fresh_afterPushes {s v : State} (hv : exec .clr s = .next v ∨ takeReset s = .next v ∨ v = State.resetWith s.cfg) :
    v.cfg = s.cfg ∧ v.blk.AfterPushes s.cfg [] [] := by
  rcases hv with h | h | rfl
  · obtain ⟨-, a, ha, rfl⟩ := exec_next h
    rw [clrEffect_ok ha]
    exact ⟨rfl, .nil rfl rfl rfl rfl _⟩
  · obtain ⟨-, rfl⟩ := takeReset_next h
    exact ⟨rfl, .nil rfl rfl rfl rfl _⟩
  · exact ⟨rfl, .nil rfl rfl rfl rfl _⟩

/-- Settles O36: by induction over the text; where it fits, the cut takes nothing away and every answer counts. -/
theorem pushesLeaveTheEncodedMessage : Obligations.PushesLeaveTheEncodedMessage := by
  intro s v t hwf hv
  obtain ⟨hcfg, hfresh⟩ := fresh_afterPushes hv
  rw [← hcfg] at hwf hfresh ⊢
  obtain ⟨rs, u, hu, hmsg, hlen, hcounted⟩ := hfresh.converse hwf t
  refine ⟨rs, u, hu, hlen, hmsg, fun hfit => ?_⟩
  have huncut : (filterAllowed t).take v.cfg.maxChars = filterAllowed t := List.take_of_length_le hfit
  have hpay := hmsg.payload
  have hp1 := hmsg.p1
  simp only [List.nil_append, huncut] at hpay hp1
  refine ⟨hmsg.cc.trans (min_eq_left hfit), hpay, hp1, ?_, hmsg.mode⟩
  calc u.blk.rawpar = countedParity rs := hmsg.rawpar
    _ = countParity rs.length := countedParity_of_all (hcounted hfit)
    _ = countParity t.length := congrArg countParity hlen

/-! ### Pushing the filtered text (R60) -/

theorem filterAllowed_idem (t : List Code) : filterAllowed (filterAllowed t) = filterAllowed t := by
  simp [filterAllowed]

/-- PUSH of a code that is not allowed writes `rawpar` at most. -/
theorem pushEffect_writes_rawpar_only {cfg : Config} {blk : Block} {c : Code} {a : Answer} (hna : allowed c = false)
    (h : effectOf (.push c) cfg blk = .ok a) : ∃ r, a.blk = { blk with rawpar := r } := by
  rcases pushEffect_ok h with ⟨-, rfl⟩ | ⟨-, -, rfl⟩ | ⟨-, ha, -, rfl⟩ | ⟨-, ha, -, cells, -, rfl⟩
  · exact ⟨blk.rawpar, rfl⟩
  · exact ⟨!blk.rawpar, rfl⟩
  · simp [hna] at ha
  · simp [hna] at ha

/-- PUSH does not look at `rawpar`: with another value of it, the answer differs in `rawpar` at most. -/
theorem pushEffect_of_rawpar {cfg : Config} {blk : Block} {c : Code} {a : Answer} (h : effectOf (.push c) cfg blk = .ok a) (r : Bit) :
    ∃ r', effectOf (.push c) cfg { blk with rawpar := r } = .ok { a with blk := { a.blk with rawpar := r' } } := by
  rcases pushEffect_ok h with ⟨hm, rfl⟩ | ⟨hm, ha, rfl⟩ | ⟨hm, ha, hc, rfl⟩ | ⟨hm, ha, hc, cells, hw, rfl⟩
  · exact ⟨r, pushEffect_of_ready (blk := { blk with rawpar := r }) hm c⟩
  · exact ⟨!r, pushEffect_of_not_allowed hm ha⟩
  · exact ⟨r, pushEffect_of_full hm ha hc⟩
  · exact ⟨!r, pushEffect_of_pbWriteBits hm ha hc hw⟩

/-- Pushing a text, and pushing its filtered codes from a block that differs in `rawpar` only, end in blocks that do. -/
theorem converse_pushWords_filterAllowed {t : List Code} {s s' u : State} {rs : List ResponseWord} {r : Bit}
    (hcfg : s'.cfg = s.cfg) (hblk : s'.blk = { s.blk with rawpar := r }) (h : converse (pushWords t) s = .next (rs, u)) :
    ∃ rs' u' r', converse (pushWords (filterAllowed t)) s' = .next (rs', u') ∧ u'.blk = { u.blk with rawpar := r' } := by
  induction t generalizing s s' rs r with
  | nil => cases h; exact ⟨_, s', r, rfl, hblk⟩
  | cons c t ih =>
    obtain ⟨m, rs₁, hm, hrest, -⟩ := converse_cons_inv h
    rw [step_issueFirst_encode] at hm
    obtain ⟨hwf, a, ha, rfl⟩ := exec_next hm
    cases hallowed : allowed c with
    | false =>
      obtain ⟨r₁, hr₁⟩ := pushEffect_writes_rawpar_only hallowed ha
      have hskip : filterAllowed (c :: t) = filterAllowed t := List.filter_cons_of_neg (by simp [hallowed])
      rw [hskip]
      exact ih (s := answer s a) hcfg (by rw [hblk, answer_blk, hr₁]) hrest
    | true =>
      obtain ⟨r', ha'⟩ := pushEffect_of_rawpar ha r
      have hkeep : filterAllowed (c :: t) = c :: filterAllowed t := List.filter_cons_of_pos hallowed
      obtain ⟨rs', u', r'', hu', hend⟩ :=
        ih (s := answer s a) (s' := answer s' { a with blk := { a.blk with rawpar := r' } }) hcfg rfl hrest
      rw [hkeep]
      refine ⟨_, u', r'', converse_encode_cons (i := .push c) (by rw [hcfg]; exact hwf) ?_ hu', hend⟩
      rw [hcfg, hblk]
      exact ha'

/-- Settles O37: a filter is idempotent; and after CLR the two runs differ in `rawpar` at most, since a dropped code writes nothing
else. -/
theorem filteringTwiceIsFilteringOnce : Obligations.FilteringTwiceIsFilteringOnce := by
  refine ⟨fun t => ⟨filterAllowed_idem t, ?_⟩, fun s t hwf => ?_⟩
  · rw [encodeRef, filterAllowed_idem, encodeRef]
  · obtain ⟨a, ha⟩ : ∃ a, effectOf .clr s.cfg s.blk = .ok a := ⟨_, rfl⟩
    obtain ⟨-, hfresh⟩ := fresh_afterPushes (.inl (exec_of_ok hwf ha))
    obtain ⟨rs, u, hu, -⟩ := hfresh.converse (s := answer s a) hwf t
    obtain ⟨rs', u', r, hu', hend⟩ := converse_pushWords_filterAllowed (s' := answer s a) rfl rfl hu
    refine ⟨_, u, _, u', converse_encode_cons hwf ha hu, converse_encode_cons hwf ha hu', ?_⟩
    rw [hend]
    exact ⟨rfl, rfl, rfl⟩

end Sys2Proof.Machine

/-! PROOFS. The invariant of R25 and R26 is kept: by every command, by every step, and so along every conversation of the host. -/

namespace Sys2Proof.Machine

/-! ### The payload -/

section
variable {cfg : Config} {blk : Block}

/-- A block without a character: R25's sentences about the payload hold of no cell. -/
theorem Block.PayloadInv.resetBlock (h : blk.PayloadInv cfg) : (Machine.resetBlock blk).PayloadInv cfg where
  canonical := h.canonical
  cellsExist := h.cellsExist
  fits := Nat.zero_le _
  characters _ hk := absurd hk (Nat.not_lt_zero _)
  parityKept := rfl

/-- Writing one more code at `8*cc` leaves the characters before it. -/
theorem holdsCode_of_pbWriteBits {cells : PayloadBuffer} {s : BitString} {k : Nat} {c : Code} (hk : k < blk.cc)
    (hw : pbWriteBits cfg blk.pbuf (8 * blk.cc) s = .ok cells) (h : holdsCode blk k c) :
    holdsCode { blk with pbuf := cells } k c := by
  obtain ⟨-, hbelow, -, -⟩ := pbWriteBits_ok hw
  intro j hj
  exact (hbelow _ (.inl (by omega))).trans (h j hj)

/-- The code written at `8*cc` is the character `cc`. -/
theorem holdsCode_cc_of_pbWriteBits {cells : PayloadBuffer} {c : Code}
    (hw : pbWriteBits cfg blk.pbuf (8 * blk.cc) (exp8 c) = .ok cells) : holdsCode { blk with pbuf := cells } blk.cc c := by
  obtain ⟨hcode, -, -, -⟩ := pbWriteBits_ok hw
  intro j hj
  exact (hcode j hj).trans (exp8_getElem? c hj)

/-- A PUSH that stores adds an allowed character to the payload, and its parity to `p1`. -/
theorem Block.PayloadInv.store (h : blk.PayloadInv cfg) {c : Code} {cells : PayloadBuffer} (ha : allowed c = true)
    (hc : blk.cc ≠ cfg.maxChars) (hw : pbWriteBits cfg blk.pbuf (8 * blk.cc) (exp8 c) = .ok cells) :
    Block.PayloadInv cfg
      { blk with pbuf := cells, p1 := xor blk.p1 (codeParity c), cc := blk.cc + 1, rawpar := !blk.rawpar } := by
  obtain ⟨-, -, hcanonical, hexist⟩ := pbWriteBits_ok hw
  exact
    { canonical := hcanonical h.canonical
      cellsExist := fun e he => (hexist e he).elim (h.cellsExist e) id
      fits := Nat.lt_of_le_of_ne h.fits hc
      characters := fun k hk => by
        rcases Nat.lt_succ_iff_lt_or_eq.1 hk with hlt | rfl
        · obtain ⟨d, hd, hold⟩ := h.characters k hlt
          exact ⟨d, hd, holdsCode_of_pbWriteBits hlt hw hold⟩
        · exact ⟨c, ha, holdsCode_cc_of_pbWriteBits hw⟩
      parityKept := by
        simp only [payload]
        rw [push_payload hw, parity_append, parity_exp8, ← h.parityKept] }

/-! ### The block -/

/-- In ACCUM the invariant is its payload and ACCUM parts. -/
theorem Block.Inv.of_accum (hm : blk.mode = .accum) (hp : blk.PayloadInv cfg) (ha : blk.AccumInv) : blk.Inv cfg where
  payload := hp
  accum _ := ha
  ready hr := by simp [hm] at hr

/-- In READY the invariant is its payload and READY parts. -/
theorem Block.Inv.of_ready (hm : blk.mode = .ready) (hp : blk.PayloadInv cfg) (hr : blk.ReadyInv cfg) : blk.Inv cfg where
  payload := hp
  accum ha := by simp [hm] at ha
  ready _ := hr

theorem Block.Inv.resetBlock (h : blk.Inv cfg) : (Machine.resetBlock blk).Inv cfg :=
  .of_accum rfl h.payload.resetBlock ⟨rfl, rfl, rfl, rfl⟩

variable {a : Answer}

theorem Block.Inv.push (h : blk.Inv cfg) {c : Code} (he : effectOf (.push c) cfg blk = .ok a) : a.blk.Inv cfg := by
  rcases pushEffect_ok he with ⟨-, rfl⟩ | ⟨hm, -, rfl⟩ | ⟨-, -, -, rfl⟩ | ⟨hm, ha, hc, cells, hw, rfl⟩
  · exact h
  · exact .of_accum hm { h.payload with } { h.accum hm with }
  · exact h
  · exact .of_accum hm (h.payload.store ha hc hw) { h.accum hm with }

/-- BUILD latches what R26 says of READY. -/
theorem Block.Inv.build (h : blk.Inv cfg) (he : effectOf .build cfg blk = .ok a) : a.blk.Inv cfg := by
  rcases buildEffect_ok he with ⟨-, rfl⟩ | ⟨-, -, rfl⟩ | ⟨-, hc, rfl⟩
  · exact h
  · exact h
  · exact .of_ready rfl { h.payload with }
      { notEmpty := Nat.one_le_iff_ne_zero.2 hc
        frameLength := rfl
        inFrame := Nat.zero_le _
        trailer1 := rfl
        trailer2 := rfl }

/-- `rd_idx` moves within the frame. -/
theorem Block.Inv.with_rdIdx (h : blk.Inv cfg) (hm : blk.mode = .ready) {n : Nat} (hn : n ≤ blk.flen) :
    Block.Inv cfg { blk with rdIdx := n } :=
  .of_ready hm { h.payload with } { h.ready hm with inFrame := hn }

theorem Block.Inv.pop (h : blk.Inv cfg) (he : effectOf .pop cfg blk = .ok a) : a.blk.Inv cfg := by
  rcases popEffect_ok he with ⟨-, rfl⟩ | ⟨-, -, rfl⟩ | ⟨hm, hr, b, -, rfl⟩
  · exact h
  · exact h
  · exact h.with_rdIdx hm (Nat.lt_of_le_of_ne h.rdIdx_le_flen hr)

theorem Block.Inv.rewind (h : blk.Inv cfg) (he : effectOf .rewind cfg blk = .ok a) : a.blk.Inv cfg := by
  rcases rewindEffect_ok he with ⟨-, rfl⟩ | ⟨hm, rfl⟩
  · exact h
  · exact h.with_rdIdx hm (Nat.zero_le _)

/-- Every command keeps the invariant of the block. -/
theorem Block.Inv.effectOf (h : blk.Inv cfg) {i : Instr} (he : Machine.effectOf i cfg blk = .ok a) : a.blk.Inv cfg := by
  cases i with
  | clr => rw [clrEffect_ok he]; exact h.resetBlock
  | push c => exact h.push he
  | build => exact h.build he
  | pop => exact h.pop he
  | rewind => exact h.rewind he

end

/-! ### Steps and conversations -/

/-- No step writes the configuration (R12). -/
theorem step_cfg {s t : State} (h : step s = .next t) : t.cfg = s.cfg := by
  obtain ⟨-, ⟨-, rfl⟩ | ⟨rest, -, rfl⟩ | ⟨w, rest, i, a, -, -, -, rfl⟩ | ⟨w, rest, e, -, -, rfl⟩⟩ := step_next h <;> rfl

/-- Every step keeps the invariant: it holds, resets, runs a command, or leaves the block as it was. -/
theorem State.Inv.step {s t : State} (hs : s.Inv) (h : Machine.step s = .next t) : t.Inv := by
  refine ⟨step_cfg h ▸ hs.cfgWf, step_cfg h ▸ ?_⟩
  obtain ⟨-, ⟨-, rfl⟩ | ⟨rest, -, rfl⟩ | ⟨w, rest, i, a, -, -, ha, rfl⟩ | ⟨w, rest, e, -, -, rfl⟩⟩ := step_next h
  · exact hs.block
  · exact hs.block.resetBlock
  · exact hs.block.effectOf ha
  · exact hs.block

/-- A conversation keeps the configuration. -/
theorem converse_cfg {ws : List CommandWord} {s u : State} {rs : List ResponseWord} (h : converse ws s = .next (rs, u)) :
    u.cfg = s.cfg := by
  induction ws generalizing s rs with
  | nil => cases h; rfl
  | cons w ws ih =>
    obtain ⟨t, rs', ht, hrest, -⟩ := converse_cons_inv h
    exact (ih hrest).trans (step_cfg (s := issueFirst s w) ht)

/-- A conversation keeps the invariant. -/
theorem State.Inv.converse {ws : List CommandWord} {s u : State} {rs : List ResponseWord} (hs : s.Inv)
    (h : Machine.converse ws s = .next (rs, u)) : u.Inv := by
  induction ws generalizing s rs with
  | nil => cases h; exact hs
  | cons w ws ih =>
    obtain ⟨t, rs', ht, hrest, -⟩ := converse_cons_inv h
    have hissued : (issueFirst s w).Inv := ⟨hs.cfgWf, hs.block⟩
    exact ih (hissued.step ht) hrest

end Sys2Proof.Machine

/-! PROOFS. The frame (spec/41_framebuilder.md rules R63 to R71): BUILD, the length of a frame, its layout, and that the streamed frame
is the reference frame. -/

namespace Sys2Proof.Machine

/-! ### BUILD -/

/-- `P2` written as R64's choice. -/
theorem p2_eq_ite (cfg : Config) (blk : Block) :
    p2 cfg blk = if cfg.p2Source = .accepted then blk.cc % 2 == 1 else blk.rawpar := by
  cases h : cfg.p2Source <;> simp [p2, countParity, h]

/-- Settles O12: one equation of BUILD for each path. -/
theorem buildLatchesTheTrailerAndTheFrame : Obligations.BuildLatchesTheTrailerAndTheFrame := by
  refine ⟨rfl, fun s hwf => ⟨fun hm => ?_, fun hm hc => ?_, fun hm hc => ?_⟩⟩
  · exact exec_of_ok_word hwf (buildEffect_of_ready hm) responseWord_badstate
  · exact exec_of_ok_word hwf (buildEffect_of_cc_eq_zero hm hc) responseWord_empty
  · rw [← p2_eq_ite]
    exact exec_of_ok_word hwf (buildEffect_of_cc_ne_zero hm hc) responseWord_ok

/-- Settles O28: the step ends in a good state, and a good READY block has a character. -/
theorem noFrameIsBuiltOfAnEmptyPayload : Obligations.NoFrameIsBuiltOfAnEmptyPayload := by
  refine ⟨fun s t hs h hm => ?_, fun s hwf hm hc => exec_of_ok hwf (buildEffect_of_cc_eq_zero hm hc)⟩
  have ht := (hs.step h).block
  have hcc := (ht.ready hm).notEmpty
  have hlen := ht.payload.payload_length
  omega

/-! ### The length of a frame -/

/-- Settles O29: the bounds are those of `cc` in a good READY block. -/
theorem frameLengthsAreBounded : Obligations.FrameLengthsAreBounded := by
  refine ⟨fun s hs hm => ?_, by decide, by decide, by decide⟩
  have hcc := (hs.block.ready hm).notEmpty
  have hfl := (hs.block.ready hm).frameLength
  have hfits := hs.block.payload.fits
  omega

theorem Block.PayloadInv.frameOf_length {cfg : Config} {blk : Block} (h : blk.PayloadInv cfg) :
    (frameOf cfg blk).length = cfg.ls + 8 * blk.cc + 2 + cfg.le := by
  simp only [frameOf, List.length_append, h.payload_length, List.length_cons, List.length_nil, Config.ls, Config.le]

/-! ### The layout -/

theorem markerBit_eq_ok_iff {m : BitString} {i : Nat} {b : Bit} : markerBit m i = .ok b ↔ m[i]? = some b := by
  cases h : m[i]? <;> simp [markerBit, h]

/-- Where each bit that `FB` answers comes from (R67, R68), by the range of its index. -/
theorem frameBit_source {cfg : Config} {blk : Block} {i : Nat} {b : Bit} (h : frameBit cfg blk i = .ok b) :
    (i < cfg.ls → cfg.sm[i]? = some b) ∧
    (cfg.ls ≤ i → i < cfg.ls + 8 * blk.cc → pbRead cfg blk (i - cfg.ls) = .ok b) ∧
    (i = cfg.ls + 8 * blk.cc → b = blk.t1) ∧
    (i = cfg.ls + 8 * blk.cc + 1 → b = blk.t2) ∧
    (cfg.ls + 8 * blk.cc + 2 ≤ i → cfg.em[i - (cfg.ls + 8 * blk.cc + 2)]? = some b) := by
  obtain ⟨-, -, ⟨hi, hb⟩ | ⟨hlo, hhi, hb⟩ | ⟨hi, hb⟩ | ⟨hi, hb⟩ | ⟨hi, hb⟩⟩ := frameBit_ok h
  · exact ⟨fun _ => markerBit_eq_ok_iff.1 hb, by omega, by omega, by omega, by omega⟩
  · exact ⟨by omega, fun _ _ => hb, by omega, by omega, by omega⟩
  · exact ⟨by omega, by omega, fun _ => hb, by omega, by omega⟩
  · exact ⟨by omega, by omega, by omega, fun _ => hb, by omega⟩
  · exact ⟨by omega, by omega, by omega, by omega, fun _ => markerBit_eq_ok_iff.1 hb⟩

theorem Block.PayloadInv.frameOf_getElem?_after_payload {cfg : Config} {blk : Block} (hp : blk.PayloadInv cfg) (k : Nat) :
    (frameOf cfg blk)[cfg.ls + 8 * blk.cc + k]? = (blk.t1 :: blk.t2 :: cfg.em)[k]? := by
  have hfront : (cfg.sm ++ payload blk).length = cfg.ls + 8 * blk.cc := by
    rw [List.length_append, hp.payload_length, Config.ls]
  rw [frameOf, List.append_assoc _ [blk.t1, blk.t2], ← hfront, List.getElem?_append_right (Nat.le_add_right _ _),
    Nat.add_sub_cancel_left]
  rfl

/-- The bit that `FB` answers is the bit of the layout. -/
theorem Block.PayloadInv.frameOf_getElem? {cfg : Config} {blk : Block} (hp : blk.PayloadInv cfg) {i : Nat} {b : Bit}
    (h : frameBit cfg blk i = .ok b) : (frameOf cfg blk)[i]? = some b := by
  have hlen := hp.payload_length
  obtain ⟨-, -, ⟨hi, hb⟩ | ⟨hlo, hhi, hb⟩ | ⟨rfl, rfl⟩ | ⟨rfl, rfl⟩ | ⟨hi, hb⟩⟩ := frameBit_ok h
  · rw [frameOf, List.append_assoc, List.append_assoc, List.getElem?_append_left hi]
    exact markerBit_eq_ok_iff.1 hb
  · obtain ⟨-, hlt, hcell⟩ := pbRead_ok_iff.1 hb
    rw [frameOf, List.append_assoc, List.append_assoc, List.getElem?_append_right hlo,
      List.getElem?_append_left (by rw [hlen]; exact hlt)]
    exact (hp.payload_getElem? hlt).trans hcell
  · exact hp.frameOf_getElem?_after_payload 0
  · exact hp.frameOf_getElem?_after_payload 1
  · obtain ⟨k, rfl⟩ := Nat.exists_eq_add_of_le hi
    rw [Nat.add_sub_cancel_left, markerBit_eq_ok_iff] at hb
    rw [Nat.add_assoc _ 2, hp.frameOf_getElem?_after_payload, Nat.add_comm]
    exact hb

/-- Settles O32: in READY every index below `flen` has its bit, which comes from where its range says; elsewhere `FB` answers none. -/
theorem frameBitsFollowTheLayout : Obligations.FrameBitsFollowTheLayout := by
  refine fun cfg blk h => ⟨fun hm => ?_, fun i hi b hb => ?_⟩
  · have hfl := (h.ready hm).frameLength
    refine ⟨h.payload.frameOf_length.trans hfl.symm, hfl, fun i hi => ?_⟩
    obtain ⟨b, hb⟩ := h.frameBit_succeeds hm hi
    exact ⟨b, hb, h.payload.frameOf_getElem? hb, frameBit_source hb⟩
  · obtain ⟨hm, hlt, -⟩ := frameBit_ok hb
    rcases hi with hi | hi
    · simp [hm] at hi
    · omega

/-! ### The streamed frame is the reference frame -/

/-- The trailer of a block that holds the message: `P2` is `P2_REF` (R64). -/
theorem p2_eq_p2Ref {cfg : Config} {blk : Block} {t : List Code} (hcc : blk.cc = acc t)
    (hraw : blk.rawpar = (t.length % 2 == 1)) : p2 cfg blk = p2Ref cfg t := by
  cases hsrc : cfg.p2Source with
  | accepted => simp only [p2, p2Ref, hsrc, hcc]
  | pushed => simp only [p2, p2Ref, hsrc, hraw, countParity]

/-- CLR and the PUSHes of a text that fits leave its encoded message, in ACCUM. -/
theorem converse_clr_pushWords {s : State} (hwf : s.cfg.wf = true) {t : List Code} (hfit : acc t ≤ s.cfg.maxChars) :
    ∃ rs v, converse (encode .clr :: pushWords t) s = .next (rs, v) ∧ v.cfg = s.cfg ∧ v.blk.mode = .accum ∧
      v.blk.cc = acc t ∧ payload v.blk = encodeRef t ∧ v.blk.p1 = p1Ref t ∧ p2 v.cfg v.blk = p2Ref v.cfg t := by
  obtain ⟨a, ha⟩ : ∃ a, effectOf .clr s.cfg s.blk = .ok a := ⟨_, rfl⟩
  obtain ⟨rs, v, hv, -, -, hholds⟩ := pushesLeaveTheEncodedMessage s _ t hwf (.inl (exec_of_ok hwf ha))
  obtain ⟨hcc, hpay, hp1, hraw, hm⟩ := hholds hfit
  have hconv := converse_encode_cons hwf ha hv
  exact ⟨_, v, hconv, converse_cfg hconv, hm, hcc, hpay, hp1, p2_eq_p2Ref hcc hraw⟩

/-- A conversation that ends with one more command. -/
theorem converse_encode_concat {s v : State} {i : Instr} {a : Answer} {ws : List CommandWord} {rs : List ResponseWord}
    (h : converse ws s = .next (rs, v)) (hwf : v.cfg.wf = true) (ha : effectOf i v.cfg v.blk = .ok a) :
    converse (ws ++ [encode i]) s = .next (rs ++ [responseWord a.code a.bit], answer v a) :=
  converse_append h (converse_encode_cons hwf ha rfl)

/-- Of a message without an accepted code no frame is built (R71). -/
theorem converse_messageWords_of_acc_eq_zero {s : State} (hwf : s.cfg.wf = true) {t : List Code} (hacc : acc t = 0) :
    ∃ rs u, converse (messageWords t) s = .next (rs ++ [responseWord .empty false], u) ∧ u.blk.mode = .accum := by
  obtain ⟨rs, v, hv, hcfg, hm, hcc, -⟩ := converse_clr_pushWords hwf (t := t) (by omega)
  have hbuild := converse_encode_concat hv (hcfg ▸ hwf) (buildEffect_of_cc_eq_zero hm (hcc.trans hacc))
  exact ⟨rs, _, hbuild, hm⟩

/-- Framing a message leaves its reference frame in READY, with nothing read out yet. -/
theorem converse_messageWords {s : State} (hwf : s.cfg.wf = true) {t : List Code} (hacc : 1 ≤ acc t)
    (hfit : acc t ≤ s.cfg.maxChars) :
    ∃ rs u, converse (messageWords t) s = .next (rs ++ [responseWord .ok false], u) ∧ u.cfg = s.cfg ∧
      u.blk.mode = .ready ∧ u.blk.rdIdx = 0 ∧ frameRef s.cfg t = some (frameOf u.cfg u.blk) := by
  obtain ⟨rs, v, hv, hcfg, hm, hcc, hpay, hp1, hp2⟩ := converse_clr_pushWords hwf hfit
  have hne : v.blk.cc ≠ 0 := by omega
  have hbuild := converse_encode_concat hv (hcfg ▸ hwf) (buildEffect_of_cc_ne_zero hm hne)
  refine ⟨rs, _, hbuild, hcfg, rfl, rfl, ?_⟩
  rw [frameRef, if_neg (by omega), ← hpay, ← hp1, ← hcfg, ← hp2]
  rfl

/-- Without the count of dropped codes the frame depends on the accepted codes only. -/
theorem frameRef_congr_of_accepted {cfg : Config} {t t' : List Code} (hsrc : cfg.p2Source = .accepted)
    (h : filterAllowed t = filterAllowed t') : frameRef cfg t = frameRef cfg t' := by
  simp only [frameRef, acc, encodeRef, p1Ref, p2Ref, hsrc, h]

/-- Settles O39: framing leaves the layout equal to the reference frame, and in a good READY block `FB` reads the layout. -/
theorem theStreamedFrameIsTheReferenceFrame : Obligations.TheStreamedFrameIsTheReferenceFrame := by
  refine ⟨fun s t hs hfit => ?_, fun cfg t t' => frameRef_congr_of_accepted⟩
  rcases Nat.eq_zero_or_pos (acc t) with hacc | hacc
  · obtain ⟨rs, u, hu, hm⟩ := converse_messageWords_of_acc_eq_zero hs.cfgWf hacc
    exact ⟨_, u, hu, fun h => by omega, fun _ => ⟨List.getLast?_concat, hm⟩⟩
  · obtain ⟨rs, u, hu, -, hm, -, hframe⟩ := converse_messageWords hs.cfgWf hacc hfit
    have hub := (hs.converse hu).block
    obtain ⟨hlayout, -⟩ := frameBitsFollowTheLayout u.cfg u.blk hub
    obtain ⟨hlen, -, hbits⟩ := hlayout hm
    refine ⟨_, u, hu, fun _ => ⟨List.getLast?_concat, hm, _, hframe, hlen.symm, fun i hi => ?_⟩, fun h => by omega⟩
    obtain ⟨b, hb, hget, -⟩ := hbits i hi
    exact ⟨b, hb, hget⟩

end Sys2Proof.Machine

/-! PROOFS. The frame read-out (spec/42_frame_output.md rules R73, R74 and R77): POP and REWIND on every path, and a message sent over
some cycles. -/

namespace Sys2Proof.Machine

/-! ### POP and REWIND -/

/-- Until the frame is drained, POP in a good READY block answers the next bit of the layout. -/
theorem Block.Inv.popEffect_of_lt {cfg : Config} {blk : Block} (h : blk.Inv cfg) (hm : blk.mode = .ready)
    (hlt : blk.rdIdx < blk.flen) :
    ∃ b, frameBit cfg blk blk.rdIdx = .ok b ∧ (frameOf cfg blk)[blk.rdIdx]? = some b ∧
      Machine.effectOf .pop cfg blk = .ok ⟨{ blk with rdIdx := blk.rdIdx + 1 }, .ok, b⟩ := by
  obtain ⟨b, hb⟩ := h.frameBit_succeeds hm hlt
  exact ⟨b, hb, h.payload.frameOf_getElem? hb, popEffect_of_frameBit hm hlt.ne hb⟩

theorem responseWord_ok_eq_ite (b : Bit) : responseWord .ok b = if b then 0x10#8 else 0x00#8 := by
  cases b with
  | false => exact responseWord_ok
  | true => exact responseWord_ok_one

/-- Settles O13: one equation of POP for each path; below `flen` the good block has the bit. -/
theorem popAnswersTheNextFrameBit : Obligations.PopAnswersTheNextFrameBit := by
  refine ⟨rfl, fun s hwf => ⟨fun hm => ?_, fun hm hr => ?_, fun hb hm hlt => ?_⟩⟩
  · exact exec_of_ok_word hwf (popEffect_of_accum hm) responseWord_badstate
  · exact exec_of_ok_word hwf (popEffect_of_drained hm hr) responseWord_drained
  · obtain ⟨b, hfb, hget, hpop⟩ := hb.popEffect_of_lt hm hlt
    exact ⟨b, hfb, hget, exec_of_ok_word hwf hpop (responseWord_ok_eq_ite b)⟩

/-- Settles O14: one equation of REWIND for each mode. -/
theorem rewindRestartsTheFrame : Obligations.RewindRestartsTheFrame :=
  ⟨rfl, fun _ hwf =>
    ⟨fun hm => exec_of_ok_word hwf (rewindEffect_of_accum hm) responseWord_badstate,
      fun hm => exec_of_ok_word hwf (rewindEffect_of_ready hm) responseWord_ok⟩⟩

/-! ### Reading the frame out -/

theorem Block.Inv.frameOf_length {cfg : Config} {blk : Block} (h : blk.Inv cfg) (hm : blk.mode = .ready) :
    (frameOf cfg blk).length = blk.flen :=
  h.payload.frameOf_length.trans (h.ready hm).frameLength.symm

/-- As many POPs as there are bits left hand out the rest of the frame in order, and leave it drained. -/
theorem State.Inv.converse_popWords {s : State} (hs : s.Inv) (hm : s.blk.mode = .ready) {n : Nat}
    (hn : s.blk.rdIdx + n = s.blk.flen) :
    ∃ rs t, Machine.converse (popWords n) s = .next (rs, t) ∧
      rs.map frameBitOf = ((frameOf s.cfg s.blk).drop s.blk.rdIdx).map some ∧
      t.blk = { s.blk with rdIdx := s.blk.flen } := by
  induction n generalizing s with
  | zero =>
    have hr : s.blk.rdIdx = s.blk.flen := hn
    refine ⟨[], s, rfl, ?_, by rw [← hr]⟩
    rw [hr, ← hs.block.frameOf_length hm, List.drop_length]
    rfl
  | succ n ih =>
    obtain ⟨b, -, hget, hpop⟩ := hs.block.popEffect_of_lt hm (by omega)
    have hnext : (answer s ⟨{ s.blk with rdIdx := s.blk.rdIdx + 1 }, .ok, b⟩).Inv := ⟨hs.cfgWf, hs.block.pop hpop⟩
    obtain ⟨rs, t, ht, hbits, hend⟩ := ih hnext hm ((Nat.add_right_comm _ 1 n).trans hn)
    refine ⟨_, t, converse_encode_cons hs.cfgWf hpop ht, ?_, hend⟩
    obtain ⟨hlt, hb⟩ := List.getElem?_eq_some_iff.1 hget
    rw [List.map_cons, frameBitOf_ok, hbits, List.drop_eq_getElem_cons hlt, hb]
    rfl

/-! ### What a transmitter's commands put on the wire -/

/-- The conversation `ws` takes `s` to `t`, each word with its response, and puts the bits `out` on the wire. -/
def Sends (s : State) (ws : List CommandWord) (out : BitString) (t : State) : Prop :=
  ∃ rs, converse ws s = .next (rs, t) ∧ ws.length = rs.length ∧ bitsOut ws rs = out

theorem Sends.nil (s : State) : Sends s [] [] s := ⟨[], rfl, rfl, rfl⟩

theorem Sends.append {s t u : State} {ws vs : List CommandWord} {out more : BitString} (h : Sends s ws out t)
    (hv : Sends t vs more u) : Sends s (ws ++ vs) (out ++ more) u := by
  obtain ⟨rs, hconv, hlen, rfl⟩ := h
  obtain ⟨qs, hconv', hlen', rfl⟩ := hv
  exact ⟨rs ++ qs, converse_append hconv hconv', by simp only [List.length_append, hlen, hlen'], bitsOut_append _ _ _ _ hlen⟩

/-- A good state in READY whose frame is `frame`, read out to any point. -/
structure State.HoldsFrame (frame : BitString) (s : State) : Prop where
  inv : s.Inv
  ready : s.blk.mode = .ready
  layout : frameOf s.cfg s.blk = frame

section
variable {frame : BitString} {s : State}

theorem State.HoldsFrame.flen_eq (h : s.HoldsFrame frame) : s.blk.flen = frame.length := by
  rw [← h.inv.block.frameOf_length h.ready, h.layout]

/-- Reading moves `rd_idx` and nothing else of the block, so the frame stays. -/
theorem State.HoldsFrame.of_converse (h : s.HoldsFrame frame) {t : State} {ws : List CommandWord} {rs : List ResponseWord} {n : Nat}
    (hconv : converse ws s = .next (rs, t)) (hblk : t.blk = { s.blk with rdIdx := n }) : t.HoldsFrame frame where
  inv := h.inv.converse hconv
  ready := hblk ▸ h.ready
  layout := by rw [converse_cfg hconv, hblk]; exact h.layout

/-- `flen` POPs from the first bit on put the frame on the wire. -/
theorem State.HoldsFrame.sends_popWords (h : s.HoldsFrame frame) (hr : s.blk.rdIdx = 0) :
    ∃ t, Sends s (popWords frame.length) frame t ∧ t.HoldsFrame frame := by
  obtain ⟨rs, t, hconv, hbits, hend⟩ := h.inv.converse_popWords h.ready (n := frame.length) (by rw [hr, h.flen_eq, Nat.zero_add])
  rw [h.layout, hr, List.drop_zero] at hbits
  have hlen : rs.length = frame.length := by simpa only [List.length_map] using congrArg List.length hbits
  have hout : bitsOut (popWords frame.length) rs = frame := bitsOut_pops _ rs frame rfl hbits
  exact ⟨t, ⟨rs, hconv, (List.length_replicate ..).trans hlen.symm, hout⟩, h.of_converse hconv hend⟩

/-- REWIND puts no bit on the wire. -/
theorem State.HoldsFrame.sends_rewind (h : s.HoldsFrame frame) :
    ∃ t, Sends s [encode .rewind] [] t ∧ t.HoldsFrame frame ∧ t.blk.rdIdx = 0 := by
  have hconv := converse_encode_cons (ws := []) h.inv.cfgWf (rewindEffect_of_ready h.ready) rfl
  exact ⟨_, ⟨_, hconv, rfl, rfl⟩, h.of_converse hconv rfl, rfl⟩

/-- Each further cycle puts the frame on the wire once more. -/
theorem State.HoldsFrame.sends_further_cycles (h : s.HoldsFrame frame) (n : Nat) :
    ∃ t, Sends s (List.replicate n (encode .rewind :: popWords frame.length)).flatten (List.replicate n frame).flatten t := by
  induction n generalizing s with
  | zero => exact ⟨s, .nil s⟩
  | succ n ih =>
    obtain ⟨t, hrewind, ht, hr⟩ := h.sends_rewind
    obtain ⟨u, hpops, hu⟩ := ht.sends_popWords hr
    obtain ⟨v, hrest⟩ := ih hu
    exact ⟨v, (hrewind.append hpops).append hrest⟩

/-- A transmitter's commands put the frame on the wire once for each cycle (R77). -/
theorem State.HoldsFrame.sends_transmitWords (h : s.HoldsFrame frame) (hr : s.blk.rdIdx = 0) (cycles : Nat) :
    ∃ t, Sends s (transmitWords frame.length cycles) (List.replicate cycles frame).flatten t := by
  cases cycles with
  | zero => exact ⟨s, .nil s⟩
  | succ further =>
    obtain ⟨t, hfirst, ht⟩ := h.sends_popWords hr
    obtain ⟨u, hrest⟩ := ht.sends_further_cycles further
    exact ⟨u, hfirst.append hrest⟩

end

/-! ### A message end to end -/

theorem count_pop_popWords (n : Nat) : (popWords n).count (encode .pop) = n := List.count_replicate_self

/-- A transmitter issues `flen` POPs for each cycle (R77). -/
theorem count_pop_transmitWords (flen cycles : Nat) : (transmitWords flen cycles).count (encode .pop) = cycles * flen := by
  cases cycles with
  | zero => exact (Nat.zero_mul flen).symm
  | succ further =>
    have hne : encode .rewind ≠ encode .pop := by decide
    rw [transmitWords, List.count_append, count_pop_popWords, List.count_flatten, List.map_replicate, List.sum_replicate,
      List.count_cons_of_ne hne, count_pop_popWords, smul_eq_mul, Nat.succ_mul, Nat.add_comm]

/-- Settles O40: framing leaves the reference frame in READY at its first bit, and each cycle puts the frame held there on the wire. -/
theorem aMessageIsSentAsItsReferenceFrame : Obligations.AMessageIsSentAsItsReferenceFrame := by
  refine ⟨fun _ _ => rfl, fun s t cycles hs hacc hfit => ?_⟩
  obtain ⟨rs, u, hu, -, hm, hr, hframe⟩ := converse_messageWords hs.cfgWf hacc hfit
  have hholds : u.HoldsFrame (frameOf u.cfg u.blk) := ⟨hs.converse hu, hm, rfl⟩
  obtain ⟨v, rs', hv, -, hbits⟩ := hholds.sends_transmitWords hr cycles
  exact ⟨_, _, u, rs', v, hframe, hu, hholds.flen_eq, hv, count_pop_transmitWords _ cycles, hbits⟩

end Sys2Proof.Machine

/-! PROOFS. The reference receiver (spec/45_reference_receiver.md rules R80 to R85): the payload decode, the scan for the last markers and
the payload check, and from them what the receiver makes of this block's frames under `REFCFG`. -/

namespace Sys2Proof.Machine

/-! ### Payload decode (R80) -/

/-- The chunk code's bits are the chunk, most significant first. -/
theorem exp8_chunkCode (b0 b1 b2 b3 b4 b5 b6 b7 : Bit) :
    exp8 (chunkCode b0 b1 b2 b3 b4 b5 b6 b7) = [b0, b1, b2, b3, b4, b5, b6, b7] := by
  revert b0 b1 b2 b3 b4 b5 b6 b7; decide

theorem chunkCode_codeBit (c : Code) : chunkCode (codeBit c 7) (codeBit c 6) (codeBit c 5) (codeBit c 4) (codeBit c 3) (codeBit c 2)
    (codeBit c 1) (codeBit c 0) = c := by
  revert c; decide

/-- A code is the sum of its bits times their weights, the bits taken in the order of `EXP8` (R9, R80). -/
theorem toNat_eq_sum_codeBit (c : Code) :
    c.toNat = ((List.range 8).map fun j => (codeBit c (7 - j)).toNat * 2 ^ (7 - j)).sum := by
  revert c; decide

theorem chunkCodes_flatMap_exp8 (d : List Code) : chunkCodes (d.flatMap exp8) = d := by
  induction d with
  | nil => rfl
  | cons c d ih =>
    change chunkCode .. :: chunkCodes (d.flatMap exp8) = c :: d
    rw [chunkCode_codeBit, ih]

/-- A bit string of whole chunks is the bit expansion of their codes. -/
theorem flatMap_exp8_chunkCodes : ∀ {p : BitString}, p.length % 8 = 0 → (chunkCodes p).flatMap exp8 = p
  | [], _ => rfl
  | b0 :: b1 :: b2 :: b3 :: b4 :: b5 :: b6 :: b7 :: rest, h => by
    have hrest : rest.length % 8 = 0 := (Nat.add_mod_right _ 8).symm.trans h
    rw [chunkCodes, List.flatMap_cons, exp8_chunkCode, flatMap_exp8_chunkCodes hrest]
    rfl
  | [_], h | [_, _], h | [_, _, _], h | [_, _, _, _], h | [_, _, _, _, _], h | [_, _, _, _, _, _], h
  | [_, _, _, _, _, _, _], h => absurd h (by simp)

theorem decodeRef_of_whole {p : BitString} (h : p.length % 8 = 0) : decodeRef p = .ok (chunkCodes p) := if_neg (not_not_intro h)

theorem decodeRef_error_iff (p : BitString) : decodeRef p = .error .malformedPayload ↔ p.length % 8 ≠ 0 := by
  by_cases h : p.length % 8 = 0
  · simp [decodeRef_of_whole h, h]
  · simp [decodeRef, h]

theorem decodeRef_flatMap_exp8 (d : List Code) : decodeRef (d.flatMap exp8) = .ok d := by
  rw [decodeRef_of_whole (by rw [flatMap_exp8_length]; omega), chunkCodes_flatMap_exp8]

/-- Settles O43: a bit string of whole chunks is the bit expansion of its chunk codes, so a chunk's bits are its code's. -/
theorem decodeRefUndoesEncodeRef : Obligations.DecodeRefUndoesEncodeRef := by
  refine ⟨decodeRef_error_iff, fun p hp => ⟨_, decodeRef_of_whole hp, ?_, fun k hk => ?_⟩, decodeRef_flatMap_exp8,
    fun t => decodeRef_flatMap_exp8 _⟩
  · have hlen := flatMap_exp8_length (chunkCodes p)
    rw [flatMap_exp8_chunkCodes hp] at hlen
    omega
  · have hbit : ∀ j < 8, p[8 * k + j]? = some (codeBit (chunkCodes p)[k] (7 - j)) := fun j hj => by
      simpa only [flatMap_exp8_chunkCodes hp] using flatMap_exp8_getElem? _ hk hj
    rw [toNat_eq_sum_codeBit]
    refine congrArg List.sum (List.map_congr_left fun j hj => ?_)
    rw [hbit j (List.mem_range.1 hj), Option.getD_some]

/-! ### Payload check (R82) -/

theorem checkRef_of_valid {pay par : BitString} (h8 : pay.length % 8 = 0) (h1 : 8 ≤ pay.length)
    (hpar : par = [pay.count true % 2 == 1, countParity (pay.length / 8)]) : checkRef pay par = .decoded (chunkCodes pay) := by
  rw [checkRef, if_pos ⟨h8, h1, hpar⟩, decodeRef_of_whole h8]

theorem checkRef_of_not_valid {pay par : BitString}
    (h : ¬ (pay.length % 8 = 0 ∧ 8 ≤ pay.length ∧ par = [pay.count true % 2 == 1, countParity (pay.length / 8)])) :
    checkRef pay par = .invalid := if_neg h

/-- Settles O45: the check's condition is the statement's, and whole chunks always decode. -/
theorem checkRefValidatesThePayload : Obligations.CheckRefValidatesThePayload :=
  fun _ _ => ⟨fun ⟨h8, h1, hpar⟩ => ⟨_, decodeRef_of_whole h8, checkRef_of_valid h8 h1 hpar⟩, checkRef_of_not_valid⟩

/-! ### Scan (R81) -/

theorem occursAt_eq_true_iff {m r : BitString} {i : Nat} : occursAt m r i = true ↔ (r.drop i).take m.length = m := beq_iff_eq

section
variable {cfg : Config} {r : BitString} {i j : Nat}

theorem scanRef_of_sm_none (hi : lastOccurrence cfg.sm r = none) : scanRef cfg r = .pending := by
  rw [scanRef, hi]

theorem scanRef_of_em_none (hi : lastOccurrence cfg.sm r = some i) (hj : lastOccurrence cfg.em (r.drop (i + cfg.ls)) = none) :
    scanRef cfg r = .pending := by
  simp only [scanRef, hi, hj]

theorem scanRef_of_both (hi : lastOccurrence cfg.sm r = some i) (hj : lastOccurrence cfg.em (r.drop (i + cfg.ls)) = some j) :
    scanRef cfg r = if j < 2 then .invalid
      else checkRef ((r.drop (i + cfg.ls)).take (j - 2)) (((r.drop (i + cfg.ls)).drop (j - 2)).take 2) := by
  simp only [scanRef, hi, hj]

end

/-- Settles O44: the statement's slices are occurrences, and the last one is what `SCAN_REF` finds. -/
theorem scanRefFollowsTheLastMarkers : Obligations.ScanRefFollowsTheLastMarkers := by
  intro cfg r hwf
  obtain ⟨⟨hsm, hem⟩, -⟩ := cfg.wf_iff.1 hwf
  simp only [Config.ls, Config.le, ne_eq, ← occursAt_eq_true_iff]
  refine ⟨fun hno => scanRef_of_sm_none (lastOccurrence_none hno), fun i hi hlast => ?_⟩
  have hfirst := lastOccurrence_some (by omega) hi hlast
  refine ⟨fun hno => scanRef_of_em_none hfirst (lastOccurrence_none hno), fun j hj hlastj => ?_⟩
  have hscan := scanRef_of_both hfirst (lastOccurrence_some (by omega) hj hlastj)
  exact ⟨fun h => hscan.trans (if_pos h), fun h => hscan.trans (if_neg (by omega))⟩

/-! ### The bits of an allowed code (R61, R84) -/

theorem codeBit_six_or_five_of_allowed {c : Code} : allowed c = true → codeBit c 6 = true ∨ codeBit c 5 = true := by
  revert c; decide

theorem exists_one_below_five_of_allowed {c : Code} : allowed c = true → ∃ k < 5, codeBit c k = true := by
  revert c; decide

theorem exists_zero_below_seven_of_allowed {c : Code} : allowed c = true → ∃ k < 7, codeBit c k = false := by
  revert c; decide

/-! ### The frames of `REFCFG` with any trailer

R84's arguments about where the markers occur do not look at the trailer, so they serve `PUSHED` (R85) as well. -/

/-- The frame layout (R63) with the markers of `REFCFG` and any two trailer bits. -/
def frameWithTrailer (d : List Code) (a b : Bit) : BitString := refcfg.sm ++ (d.flatMap exp8 ++ ([a, b] ++ refcfg.em))

theorem frameRef_eq_frameWithTrailer {t : List Code} (hacc : 1 ≤ acc t) (src : P2Source) :
    frameRef { refcfg with p2Source := src } t =
      some (frameWithTrailer (filterAllowed t) (p1Ref t) (p2Ref { refcfg with p2Source := src } t)) := by
  rw [frameRef, if_neg (by omega), List.append_assoc, List.append_assoc]
  rfl

theorem frameWithTrailer_length (d : List Code) (a b : Bit) : (frameWithTrailer d a b).length = 27 + 8 * d.length := by
  simp only [frameWithTrailer, List.length_append, flatMap_exp8_length]
  change 12 + (_ + (2 + 13)) = _
  omega

theorem frameWithTrailer_sm (d : List Code) (a b : Bit) {i : Nat} (hi : i < 12) : (frameWithTrailer d a b)[i]? = refcfg.sm[i]? :=
  List.getElem?_append_left hi

theorem frameWithTrailer_payload {d : List Code} (a b : Bit) {k j : Nat} (hk : k < d.length) (hj : j < 8) :
    (frameWithTrailer d a b)[12 + 8 * k + j]? = some (codeBit d[k] (7 - j)) := by
  have hsm : refcfg.sm.length = 12 := rfl
  have hlen := flatMap_exp8_length d
  rw [Nat.add_assoc, frameWithTrailer, List.getElem?_append_right (by omega), hsm, Nat.add_sub_cancel_left,
    List.getElem?_append_left (by omega), flatMap_exp8_getElem? d hk hj]

theorem frameWithTrailer_em (d : List Code) (a b : Bit) (j : Nat) : (frameWithTrailer d a b)[14 + 8 * d.length + j]? = refcfg.em[j]? := by
  have hhead : (refcfg.sm ++ (d.flatMap exp8 ++ [a, b])).length = 14 + 8 * d.length := by
    simp only [List.length_append, flatMap_exp8_length]
    change 12 + (_ + 2) = _
    omega
  rw [frameWithTrailer, ← List.append_assoc, ← List.append_assoc, List.append_assoc refcfg.sm, ← hhead,
    List.getElem?_append_right (Nat.le_add_right _ j), Nat.add_sub_cancel_left]

section
variable {d : List Code} (hd : ∀ c ∈ d, allowed c = true) {a b : Bit} {k : Nat} (hk : k < d.length)
include hd hk

theorem frameWithTrailer_character_starts_zero : (frameWithTrailer d a b)[12 + 8 * k]? = some false := by
  rw [← Nat.add_zero (12 + 8 * k), frameWithTrailer_payload a b hk (by decide),
    codeBit_seven_of_allowed (hd _ (List.getElem_mem hk))]

theorem frameWithTrailer_one_at_one_or_two :
    (frameWithTrailer d a b)[12 + 8 * k + 1]? = some true ∨ (frameWithTrailer d a b)[12 + 8 * k + 2]? = some true := by
  rw [frameWithTrailer_payload a b hk (by decide), frameWithTrailer_payload a b hk (by decide), Option.some_inj, Option.some_inj]
  exact codeBit_six_or_five_of_allowed (hd _ (List.getElem_mem hk))

theorem frameWithTrailer_one_from_three : ∃ j, 3 ≤ j ∧ j < 8 ∧ (frameWithTrailer d a b)[12 + 8 * k + j]? = some true := by
  obtain ⟨n, hn, hbit⟩ := exists_one_below_five_of_allowed (hd _ (List.getElem_mem hk))
  refine ⟨7 - n, by omega, by omega, ?_⟩
  rw [frameWithTrailer_payload a b hk (by omega), show 7 - (7 - n) = n by omega, hbit]

theorem frameWithTrailer_zero_from_one : ∃ j, 1 ≤ j ∧ j < 8 ∧ (frameWithTrailer d a b)[12 + 8 * k + j]? = some false := by
  obtain ⟨n, hn, hbit⟩ := exists_zero_below_seven_of_allowed (hd _ (List.getElem_mem hk))
  refine ⟨7 - n, by omega, by omega, ?_⟩
  rw [frameWithTrailer_payload a b hk (by omega), show 7 - (7 - n) = n by omega, hbit]

end

/-! ### Where the markers occur (R84 (a) and (b)) -/

/-- `SM` holds nine 1s in a row. -/
theorem ones_of_occursAt_sm {r : BitString} {i p : Nat} (h : occursAt refcfg.sm r i = true) (hip : i < p) (hpi : p < i + 10) :
    r[p]? = some true := by
  have hones : ∀ j < 10, 0 < j → refcfg.sm[j]? = some true := by decide
  rw [show p = i + (p - i) by omega, (occursAt_iff i).1 h _ (show p - i < 12 by omega), hones _ (by omega) (by omega)]

/-- `EM` begins with eleven bits of which the third alone is 1. -/
theorem zeros_of_occursAt_em {r : BitString} {i p : Nat} (h : occursAt refcfg.em r i = true) (hip : i ≤ p) (hpi : p < i + 11)
    (hne : p ≠ i + 2) : r[p]? = some false := by
  have hzeros : ∀ j < 11, j ≠ 2 → refcfg.em[j]? = some false := by decide
  rw [show p = i + (p - i) by omega, (occursAt_iff i).1 h _ (show p - i < 13 by omega), hzeros _ (by omega) (by omega)]

theorem one_of_occursAt_em {r : BitString} {i : Nat} (h : occursAt refcfg.em r i = true) : r[i + 2]? = some true :=
  (occursAt_iff i).1 h 2 (by decide)

/-- What keeps `EM` from starting at `i`: its one 1 would fall on a 0, or one of the ten 0s around it on a 1. -/
def BreaksEm (r : BitString) (i : Nat) : Prop :=
  r[i + 2]? = some false ∨ ∃ p, i ≤ p ∧ p < i + 11 ∧ p ≠ i + 2 ∧ r[p]? = some true

theorem BreaksEm.not_occursAt {r : BitString} {i : Nat} (h : BreaksEm r i) : occursAt refcfg.em r i ≠ true := by
  intro hem
  obtain hzero | ⟨p, hip, hpi, hne, hone⟩ := h
  · simp [one_of_occursAt_em hem] at hzero
  · simp [zeros_of_occursAt_em hem hip hpi hne] at hone

section
variable {d : List Code} (hd : ∀ c ∈ d, allowed c = true) {a b : Bit}
include hd

/-- Behind bit 1 of a frame, where there is room for the rest of an `SM`, no nine bits in a row are all 1. -/
theorem frameWithTrailer_zero_in_nine {i : Nat} (hi : 0 < i) (hroom : i + 12 ≤ 27 + 8 * d.length) :
    ∃ p, i < p ∧ p < i + 10 ∧ (frameWithTrailer d a b)[p]? = some false := by
  rcases Nat.lt_or_ge i 10 with hsm | hsm
  · exact ⟨10, hsm, by omega, frameWithTrailer_sm d a b (by decide)⟩
  rcases Nat.lt_or_ge i (4 + 8 * d.length) with hpay | hpay
  · exact ⟨12 + 8 * ((i - 4) / 8), by omega, by omega, frameWithTrailer_character_starts_zero hd (by omega)⟩
  rcases Nat.eq_or_lt_of_le hpay with hlast | hlast
  · obtain ⟨j, hj, hj8, hbit⟩ := frameWithTrailer_zero_from_one hd (a := a) (b := b) (show d.length - 1 < d.length by omega)
    exact ⟨_, by omega, by omega, hbit⟩
  rcases Nat.lt_or_ge i (14 + 8 * d.length) with htrailer | hem
  · exact ⟨14 + 8 * d.length + 0, by omega, by omega, frameWithTrailer_em d a b 0⟩
  · exact ⟨14 + 8 * d.length + 3, by omega, by omega, frameWithTrailer_em d a b 3⟩

theorem occursAt_sm_frameWithTrailer {i : Nat} : occursAt refcfg.sm (frameWithTrailer d a b) i = true ↔ i = 0 := by
  constructor
  · intro h
    by_contra hne
    have hroom := occursAt_bound (by decide) h
    rw [frameWithTrailer_length] at hroom
    obtain ⟨p, hip, hpi, hzero⟩ := frameWithTrailer_zero_in_nine hd (a := a) (b := b) (Nat.pos_of_ne_zero hne) hroom
    simp [ones_of_occursAt_sm h hip hpi] at hzero
  · rintro rfl
    exact (occursAt_iff 0).2 fun j hj => by rw [Nat.zero_add]; exact frameWithTrailer_sm d a b hj

/-- The 1 of an `EM` is no bit `r` of a character: bit 0 is 0, the bits 1 and 2 have a 1 behind them in the character, bit 3 has one just
before it, and a later bit is followed too soon by a 1 of the next character or of the end marker. -/
theorem frameWithTrailer_breaksEm_in_character {k r : Nat} (hk : k < d.length) (hr : r < 8) :
    BreaksEm (frameWithTrailer d a b) (10 + 8 * k + r) := by
  rcases (by omega : r = 0 ∨ (r = 1 ∨ r = 2) ∨ r = 3 ∨ 4 ≤ r) with rfl | hr' | rfl | hr'
  · left
    rw [show 10 + 8 * k + 0 + 2 = 12 + 8 * k by omega]
    exact frameWithTrailer_character_starts_zero hd hk
  · obtain ⟨j, hj, hj8, hone⟩ := frameWithTrailer_one_from_three hd (a := a) (b := b) hk
    exact .inr ⟨_, by omega, by omega, by omega, hone⟩
  · rcases frameWithTrailer_one_at_one_or_two hd (a := a) (b := b) hk with hone | hone <;>
      exact .inr ⟨_, by omega, by omega, by omega, hone⟩
  · rcases Nat.lt_or_ge (k + 1) d.length with hnext | hlast
    · rcases frameWithTrailer_one_at_one_or_two hd (a := a) (b := b) hnext with hone | hone <;>
        exact .inr ⟨_, by omega, by omega, by omega, hone⟩
    · exact .inr ⟨14 + 8 * d.length + 2, by omega, by omega, by omega, frameWithTrailer_em d a b 2⟩

theorem frameWithTrailer_breaksEm {i : Nat} (hi : i < 14 + 8 * d.length) : BreaksEm (frameWithTrailer d a b) i := by
  have hstart : occursAt refcfg.sm (frameWithTrailer d a b) 0 = true := (occursAt_sm_frameWithTrailer hd).2 rfl
  rcases (by omega : i = 0 ∨ (0 < i ∧ i < 10) ∨ (10 ≤ i ∧ i < 10 + 8 * d.length) ∨ 10 + 8 * d.length ≤ i) with
    rfl | ⟨h0, hsm⟩ | ⟨hsm, hpay⟩ | htrailer
  · exact .inr ⟨1, by decide, by decide, by decide, ones_of_occursAt_sm hstart (by decide) (by decide)⟩
  · exact .inr ⟨i, by omega, by omega, by omega, ones_of_occursAt_sm hstart h0 (by omega)⟩
  · rw [show i = 10 + 8 * ((i - 10) / 8) + (i - 10) % 8 by omega]
    exact frameWithTrailer_breaksEm_in_character hd (by omega) (by omega)
  · exact .inr ⟨14 + 8 * d.length + 2, by omega, by omega, by omega, frameWithTrailer_em d a b 2⟩

theorem occursAt_em_frameWithTrailer {i : Nat} :
    occursAt refcfg.em (frameWithTrailer d a b) i = true ↔ i = 14 + 8 * d.length := by
  constructor
  · intro h
    have hroom := occursAt_bound (by decide) h
    rw [frameWithTrailer_length] at hroom
    change i + 13 ≤ _ at hroom
    by_contra hne
    exact (frameWithTrailer_breaksEm hd (by omega)).not_occursAt h
  · rintro rfl
    exact (occursAt_iff _).2 fun j _ => frameWithTrailer_em d a b j

/-! ### What the scan makes of a frame -/

/-- Whatever stands before the frame, the scan checks its payload and its trailer. -/
theorem scanRef_append_frameWithTrailer (x : BitString) :
    scanRef refcfg (x ++ frameWithTrailer d a b) = checkRef (d.flatMap exp8) [a, b] := by
  have hsm : lastOccurrence refcfg.sm (x ++ frameWithTrailer d a b) = some x.length := by
    refine lastOccurrence_some (by decide) ?_ fun j hj h => ?_
    · exact (occursAt_append 0).trans ((occursAt_sm_frameWithTrailer hd).2 rfl)
    · rw [show j = x.length + (j - x.length) by omega, occursAt_append, occursAt_sm_frameWithTrailer hd] at h
      omega
  have hrest : (x ++ frameWithTrailer d a b).drop (x.length + refcfg.ls) = d.flatMap exp8 ++ ([a, b] ++ refcfg.em) := by
    rw [← List.drop_drop, List.drop_left, frameWithTrailer, Config.ls, List.drop_left]
  have hlen := flatMap_exp8_length d
  have hat (j : Nat) : occursAt refcfg.em (d.flatMap exp8 ++ ([a, b] ++ refcfg.em)) j = true ↔ j = (d.flatMap exp8).length + 2 := by
    rw [← occursAt_append (x := refcfg.sm)]
    exact (occursAt_em_frameWithTrailer hd).trans (by change 12 + j = _ ↔ _; omega)
  have hem : lastOccurrence refcfg.em ((x ++ frameWithTrailer d a b).drop (x.length + refcfg.ls)) =
      some ((d.flatMap exp8).length + 2) := by
    rw [hrest]
    exact lastOccurrence_some (by decide) ((hat _).2 rfl) fun j hj h => by have := (hat j).1 h; omega
  rw [scanRef_of_both hsm hem, if_neg (by omega), hrest, Nat.add_sub_cancel, List.take_left, List.drop_left]
  rfl

/-- A proper initial part of the frame ends before the end marker does. -/
theorem scanRef_take_frameWithTrailer {n : Nat} (hn : n < (frameWithTrailer d a b).length) :
    scanRef refcfg ((frameWithTrailer d a b).take n) = .pending := by
  have hsm (i : Nat) (h : occursAt refcfg.sm ((frameWithTrailer d a b).take n) i = true) : i = 0 :=
    (occursAt_sm_frameWithTrailer hd).1 (occursAt_take (by decide) h).1
  have hem (i : Nat) : occursAt refcfg.em ((frameWithTrailer d a b).take n) i ≠ true := by
    intro h
    obtain ⟨hfull, hroom⟩ := occursAt_take (by decide) h
    rw [(occursAt_em_frameWithTrailer hd).1 hfull] at hroom
    rw [frameWithTrailer_length] at hn
    change _ + 13 ≤ n at hroom
    omega
  by_cases hstart : occursAt refcfg.sm ((frameWithTrailer d a b).take n) 0 = true
  · refine scanRef_of_em_none (lastOccurrence_some (by decide) hstart fun j hj h => by have := hsm j h; omega)
      (lastOccurrence_none fun j => ?_)
    rw [occursAt_drop]
    exact hem _
  · exact scanRef_of_sm_none (lastOccurrence_none fun i h => hstart (hsm i h ▸ h))

end

/-- The check of an encoded message under its own `P1` turns on the second trailer bit alone. -/
theorem checkRef_encodeRef {t : List Code} (hacc : 1 ≤ acc t) (b : Bit) :
    checkRef (encodeRef t) [p1Ref t, b] = if b = countParity (acc t) then .decoded (filterAllowed t) else .invalid := by
  have hlen : (encodeRef t).length = 8 * acc t := flatMap_exp8_length _
  have hcount : (encodeRef t).length / 8 = acc t := by omega
  split_ifs with hb
  · rw [checkRef_of_valid (by omega) (by omega) (by rw [hcount, hb]; rfl), encodeRef, chunkCodes_flatMap_exp8]
  · refine checkRef_of_not_valid fun ⟨_, _, hpar⟩ => hb ?_
    rw [hcount] at hpar
    simpa using (List.cons.inj hpar).2

theorem allowed_of_mem_filterAllowed {t : List Code} : ∀ c ∈ filterAllowed t, allowed c = true :=
  fun _ hc => (List.mem_filter.1 hc).2

/-- Settles O46: the markers stand where `FRAME_REF` puts them and nowhere else, so the scan checks the encoded payload against its own
parity; a frame repeated is the frame behind a bit string. -/
theorem theReferenceReceiverAcceptsEveryFrame : Obligations.TheReferenceReceiverAcceptsEveryFrame := by
  intro t hacc _
  have hd := allowed_of_mem_filterAllowed (t := t)
  have hscan (x : BitString) : scanRef refcfg (x ++ frameWithTrailer (filterAllowed t) (p1Ref t) (p2Ref refcfg t)) =
      .decoded (filterAllowed t) := by
    rw [scanRef_append_frameWithTrailer hd]
    exact (checkRef_encodeRef hacc _).trans (if_pos rfl)
  refine ⟨_, frameRef_eq_frameWithTrailer hacc .accepted, fun i => occursAt_sm_frameWithTrailer hd, fun i => ?_, hscan [],
    fun k hk => ?_, fun n => scanRef_take_frameWithTrailer hd⟩
  · rw [occursAt_em_frameWithTrailer hd, frameWithTrailer_length]
    omega
  · obtain ⟨n, rfl⟩ := Nat.exists_eq_add_of_le' hk
    rw [List.replicate_succ', List.flatten_append, List.flatten_singleton]
    exact hscan _

/-! ### Dropped codes under `PUSHED` (R85) -/

theorem countParity_eq_iff {m n : Nat} : countParity m = countParity n ↔ m % 2 = n % 2 := by
  rcases Nat.mod_two_eq_zero_or_one m with hm | hm <;> rcases Nat.mod_two_eq_zero_or_one n with hn | hn <;>
    simp [countParity, hm, hn]

/-- Where nothing is dropped, the pushed codes are the accepted ones. -/
theorem acc_eq_length_of_allowed {t : List Code} (h : ∀ c ∈ t, allowed c = true) : acc t = t.length :=
  congrArg List.length (List.filter_eq_self.2 h)

/-- Settles O47: under `PUSHED` the second trailer bit is the parity of `|t|`, and the check expects that of `ACC(t)`. -/
theorem anOddNumberOfDropsFailsTheScanUnderPushed : Obligations.AnOddNumberOfDropsFailsTheScanUnderPushed := by
  refine ⟨fun t hacc _ hodd => ⟨_, frameRef_eq_frameWithTrailer hacc .pushed, ?_⟩, by decide, by decide, fun cfg t h => ?_⟩
  · have hwrong : p2Ref { refcfg with p2Source := .pushed } t ≠ countParity (acc t) := fun h => hodd (countParity_eq_iff.1 h)
    exact (scanRef_append_frameWithTrailer allowed_of_mem_filterAllowed []).trans
      ((checkRef_encodeRef hacc _).trans (if_neg hwrong))
  · have hp2 : p2Ref { cfg with p2Source := .pushed } t = p2Ref { cfg with p2Source := .accepted } t :=
      (congrArg countParity (acc_eq_length_of_allowed h)).symm
    rw [frameRef, frameRef, hp2]

end Sys2Proof.Machine

/-! PROOFS. Response codes (spec/60_exceptions.md rules R87 to R90): what an error leaves unchanged, and the cause of each code. -/

namespace Sys2Proof.Machine

/-! ### Errors are the only record of themselves (R88) -/

/-- The errors are the codes other than OK and DROP. -/
theorem isError_iff {code : RespCode} : isError code = true ↔ code ≠ .ok ∧ code ≠ .drop := by
  cases code <;> decide

/-- A command that answers an error code is a `raise`: the block is the old one and the bit is 0. -/
theorem effectOf_error {i : Instr} {cfg : Config} {blk : Block} {a : Answer} (h : effectOf i cfg blk = .ok a)
    (herr : isError a.code = true) : a.blk = blk ∧ a.bit = false := by
  cases i with
  | clr => cases clrEffect_ok h; cases herr
  | push c =>
    rcases pushEffect_ok h with ⟨-, rfl⟩ | ⟨-, -, rfl⟩ | ⟨-, -, -, rfl⟩ | ⟨-, -, -, cells, -, rfl⟩
    · exact ⟨rfl, rfl⟩
    · cases herr
    · exact ⟨rfl, rfl⟩
    · cases herr
  | build =>
    rcases buildEffect_ok h with ⟨-, rfl⟩ | ⟨-, -, rfl⟩ | ⟨-, -, rfl⟩
    · exact ⟨rfl, rfl⟩
    · exact ⟨rfl, rfl⟩
    · cases herr
  | pop =>
    rcases popEffect_ok h with ⟨-, rfl⟩ | ⟨-, -, rfl⟩ | ⟨-, -, b, -, rfl⟩
    · exact ⟨rfl, rfl⟩
    · exact ⟨rfl, rfl⟩
    · cases herr
  | rewind =>
    rcases rewindEffect_ok h with ⟨-, rfl⟩ | ⟨-, rfl⟩
    · exact ⟨rfl, rfl⟩
    · cases herr

/-- The step of a command word, legal or not, is one answer, and an error answer leaves the block as it was. -/
theorem step_command_answer {s t : State} {w : CommandWord} {rest : List HostEvent} (hp : s.pending = .command w :: rest)
    (h : step s = .next t) :
    ∃ a, t = answer { s with pending := rest } a ∧ (isError a.code = true → a.blk = s.blk ∧ a.bit = false) := by
  cases hd : decode w with
  | ok i =>
    obtain ⟨-, a, ha, ht⟩ := exec_next (step_command hp hd ▸ h)
    exact ⟨a, ht, effectOf_error ha⟩
  | error e =>
    obtain ⟨-, a, ha, ht⟩ := perform_next (step_illegal hp hd ▸ h)
    cases ha
    exact ⟨_, ht, fun _ => ⟨rfl, rfl⟩⟩

/-- Settles O8: the response tells the answer's code and bit, and no command writes the block on a path that answers an error. -/
theorem errorsAreTheOnlyRecordOfThemselves : Obligations.ErrorsAreTheOnlyRecordOfThemselves := by
  refine ⟨fun s t w rest code bit hp h hresp herr => ?_, fun code blk => ⟨rfl, rfl⟩⟩
  obtain ⟨a, rfl, hkept⟩ := step_command_answer hp h
  obtain ⟨rfl, rfl⟩ := responseWord_inj.1 (Option.some.inj hresp)
  obtain ⟨hblk, hbit⟩ := hkept herr
  exact ⟨hbit, by rw [answer, hblk, hbit]⟩

/-! ### The cause of each code (R89, R90) -/

/-- What R90 says of the code that a legal command answers: each code has one cause, said by the command and the state before it. -/
structure CodeHasItsCause (cfg : Config) (blk : Block) (i : Instr) (code : RespCode) : Prop where
  notIllegal : code ≠ .illegal
  badstate : code = .badstate ↔
    (blk.mode = .ready ∧ ((∃ c, i = .push c) ∨ i = .build)) ∨ (blk.mode = .accum ∧ (i = .pop ∨ i = .rewind))
  drop : code = .drop ↔ blk.mode = .accum ∧ ∃ c, i = .push c ∧ allowed c = false
  full : code = .full ↔ blk.mode = .accum ∧ ∃ c, i = .push c ∧ allowed c = true ∧ blk.cc = cfg.maxChars
  empty : code = .empty ↔ blk.mode = .accum ∧ i = .build ∧ blk.cc = 0
  drained : code = .drained ↔ blk.mode = .ready ∧ i = .pop ∧ blk.rdIdx = blk.flen
  clr : i = .clr → code = .ok

/-- Each path of a command has one code, and its guards are that code's cause and rule out every other. -/
theorem effectOf_codeHasItsCause {i : Instr} {cfg : Config} {blk : Block} {a : Answer} (h : effectOf i cfg blk = .ok a) :
    CodeHasItsCause cfg blk i a.code := by
  cases i with
  | clr => rw [clrEffect_ok h]; constructor <;> simp
  | push c =>
    rcases pushEffect_ok h with ⟨hm, rfl⟩ | ⟨hm, ha, rfl⟩ | ⟨hm, ha, hc, rfl⟩ | ⟨hm, ha, hc, cells, -, rfl⟩
    · constructor <;> simp [hm]
    · constructor <;> simp [hm, ha]
    · constructor <;> simp [hm, ha, hc]
    · constructor <;> simp [hm, ha, hc]
  | build =>
    rcases buildEffect_ok h with ⟨hm, rfl⟩ | ⟨hm, hc, rfl⟩ | ⟨hm, hc, rfl⟩
    · constructor <;> simp [hm]
    · constructor <;> simp [hm, hc]
    · constructor <;> simp [hm, hc]
  | pop =>
    rcases popEffect_ok h with ⟨hm, rfl⟩ | ⟨hm, hr, rfl⟩ | ⟨hm, hr, b, -, rfl⟩
    · constructor <;> simp [hm]
    · constructor <;> simp [hm, hr]
    · constructor <;> simp [hm, hr]
  | rewind =>
    rcases rewindEffect_ok h with ⟨hm, rfl⟩ | ⟨hm, rfl⟩
    · constructor <;> simp [hm]
    · constructor <;> simp [hm]

/-- DROP comes from PUSH of a code that is not allowed, which toggles `rawpar` alone (R58). -/
theorem effectOf_drop {i : Instr} {cfg : Config} {blk : Block} {a : Answer} (h : effectOf i cfg blk = .ok a)
    (hdrop : a.code = .drop) : a.blk = { blk with rawpar := !blk.rawpar } := by
  obtain ⟨hm, c, rfl, ha⟩ := (effectOf_codeHasItsCause h).drop.1 hdrop
  cases h.symm.trans (pushEffect_of_not_allowed hm ha)
  rfl

/-- Settles O9: a word that does not decode is ILLEGAL before the mode is looked at; a legal one answers by its command's path, and in a
good state every command answers. -/
theorem eachCodeHasExactlyItsCause : Obligations.EachCodeHasExactlyItsCause := by
  intro s w rest hs hp
  cases hd : decode w with
  | error e => exact ⟨_, .illegal, false, step_illegal_next hs.cfgWf hp hd, rfl, by simp⟩
  | ok i =>
    obtain ⟨a, ha⟩ := hs.block.effectOf_succeeds i
    have hcause := effectOf_codeHasItsCause ha
    refine ⟨_, a.code, a.bit, step_command_next hs.cfgWf hp hd ha, rfl, ?_⟩
    simp only [Except.ok.injEq]
    exact ⟨by simp [hcause.notIllegal], hcause.badstate, hcause.drop, hcause.full, hcause.empty, hcause.drained, hcause.clr,
      effectOf_drop ha, fun hok hdrop => (effectOf_error ha (isError_iff.2 ⟨hok, hdrop⟩)).1⟩

end Sys2Proof.Machine

/-! PROOFS. Reset (spec/70_reset_and_hazards.md rules R102 to R104): its values, that CLR leaves the same block, and that it hides a command
in flight. -/

namespace Sys2Proof.Machine

/-- Settles O21: the step is the reset, which keeps no field of the block but the cells, and `cc = 0` leaves none of them to read. -/
theorem resetPutsEveryFieldAtItsResetValue : Obligations.ResetPutsEveryFieldAtItsResetValue := fun s _ hwf hp =>
  ⟨_, step_reset_next hwf hp, rfl, rfl, rfl, rfl, rfl, rfl, rfl, rfl, rfl, rfl, rfl, pbRead_ne_ok_of_cc_eq_zero rfl s.cfg⟩

/-- CLR leaves the block that reset leaves, cells included, and answers OK (R57, R103). -/
theorem exec_clr_of_wf {s : State} (hwf : s.cfg.wf = true) :
    exec .clr s = .next { s with blk := resetBlock s.blk, resp := some 0x00#8 } :=
  exec_of_ok_word (i := .clr) hwf rfl responseWord_ok

/-- Settles O23: both leave `resetBlock`, in which no cell can be read. -/
theorem resetAndClrLeaveTheSameState : Obligations.ResetAndClrLeaveTheSameState := fun s hwf =>
  have hcells := pbRead_ne_ok_of_cc_eq_zero (resetBlock_cc s.blk) s.cfg
  ⟨_, _, takeReset_of_wf hwf, exec_clr_of_wf hwf, resetBlock_agree _ _, rfl, rfl, hcells, hcells, rfl, rfl⟩

/-- Settles O24: the command in flight is answered, the reset being still the next event, and any two blocks agree after reset; CLR leaves
what reset leaves. -/
theorem resetHidesTheCommandInFlight : Obligations.ResetHidesTheCommandInFlight := by
  intro s w rest hs hp
  obtain ⟨mid, -, -, hmid, hpending, -⟩ := everyCommandGetsOneResponse s w _ hs hp
  have hcfg : mid.cfg = s.cfg := step_cfg hmid
  have hwf : mid.cfg.wf = true := hcfg ▸ hs.cfgWf
  have htaken := step_reset_next hwf hpending
  have hnotTaken := step_reset_next (s := { s with pending := .reset :: rest }) hs.cfgWf rfl
  exact ⟨mid, _, _, hmid, htaken, hnotTaken, resetBlock_agree _ _, rfl, rfl, rfl, hcfg,
    _, exec_clr_of_wf hwf, resetBlock_agree _ _⟩

end Sys2Proof.Machine

/-! PROOFS. A command word is its command, for the decoder (spec/30_encoding.md sections 1 and 2) and for a step (spec/20_memory.md rule
R38). -/

namespace Sys2Proof.Machine

/-- Settles O3: decoding undoes encoding, and a word that decodes has the fields of its command's word. -/
theorem decodeAndEncodeAgree : Obligations.DecodeAndEncodeAgree := fun _ _ => decode_eq_ok_iff

/-- Settles O5: a step decodes the word at the head of the command port, where `withFetchWord` places one. -/
theorem stepRunsTheDecodedCommand : Obligations.StepRunsTheDecodedCommand := by
  refine ⟨fun s w rest i => step_command, fun s w i hd => ?_⟩
  rw [withFetchWord_eq, tableWord_toNat]
  exact step_command (s := issueFirst s w) rfl hd

end Sys2Proof.Machine

/-! PROOFS. From good states the block always goes on and stays good (spec/10_state.md rules R25 to R27), and a frame in READY stays as it
is until CLR, however it is read out (spec/42_frame_output.md rules R75 and R77). -/

namespace Sys2Proof.Machine

/-! ### Good states -/

/-- Settles O26: the invariant is kept by each of the four things a step can do. -/
theorem everyStepKeepsTheInvariant : Obligations.EveryStepKeepsTheInvariant := fun _ _ hs h => hs.step h

/-- Whatever the host does next, a good state takes it: holding and reset never stop, and a command word gets its response. -/
theorem State.Inv.goesOn_step {s : State} (hs : s.Inv) : goesOn (Machine.step s) := by
  cases hp : s.pending with
  | nil => exact ⟨_, step_idle_next hs.cfgWf hp⟩
  | cons e rest =>
    cases e with
    | reset => exact ⟨_, step_reset_next hs.cfgWf hp⟩
    | command w =>
      obtain ⟨t, -, -, ht, -⟩ := everyCommandGetsOneResponse s w rest hs hp
      exact ⟨t, ht⟩

/-- Settles O27: by the host's next event. -/
theorem goodStatesAlwaysGoOn : Obligations.GoodStatesAlwaysGoOn := fun _ hs => hs.goesOn_step

/-- Settles O25: with no character there is no payload to say anything of, and no frame. -/
theorem resetStateIsGood : Obligations.ResetStateIsGood := fun _ hwf =>
  { cfgWf := hwf
    block := .of_accum rfl
      { canonical := List.Pairwise.nil
        cellsExist := fun _ he => absurd he List.not_mem_nil
        fits := Nat.zero_le _
        characters := fun _ hk => absurd hk (Nat.not_lt_zero _)
        parityKept := rfl }
      ⟨rfl, rfl, rfl, rfl⟩ }

/-! ### The frame in READY -/

/-- In READY no command but CLR writes anything other than `rd_idx`. -/
theorem effectOf_ready_writes_rdIdx_only {i : Instr} {cfg : Config} {blk : Block} {a : Answer} (hm : blk.mode = .ready) (hi : i ≠ .clr)
    (h : effectOf i cfg blk = .ok a) : a.blk = { blk with rdIdx := a.blk.rdIdx } := by
  cases i with
  | clr => exact absurd rfl hi
  | push c => cases h.symm.trans (pushEffect_of_ready hm c); rfl
  | build => cases h.symm.trans (buildEffect_of_ready hm); rfl
  | pop => rcases popEffect_ok h with ⟨-, rfl⟩ | ⟨-, -, rfl⟩ | ⟨-, -, b, -, rfl⟩ <;> rfl
  | rewind => cases h.symm.trans (rewindEffect_of_ready hm); rfl

/-- In READY a step on any word but that of CLR moves `rd_idx` at most. -/
theorem step_ready_writes_rdIdx_only {s t : State} {w : CommandWord} (hm : s.blk.mode = .ready) (hw : w ≠ encode .clr)
    (h : step (issueFirst s w) = .next t) : t.blk = { s.blk with rdIdx := t.blk.rdIdx } := by
  cases hd : decode w with
  | ok i =>
    obtain ⟨-, a, ha, rfl⟩ := exec_next (step_command (s := issueFirst s w) rfl hd ▸ h)
    have hi : i ≠ .clr := fun hi => hw (hi ▸ eq_encode_of_decode hd)
    exact effectOf_ready_writes_rdIdx_only hm hi ha
  | error e =>
    obtain ⟨-, a, ha, rfl⟩ := perform_next (step_illegal (s := issueFirst s w) rfl hd ▸ h)
    cases ha
    rfl

/-- A host that issues command words to a good state gets an answer to each. -/
theorem State.Inv.converse_goesOn {s : State} (hs : s.Inv) (ws : List CommandWord) :
    ∃ rs t, Machine.converse ws s = .next (rs, t) := by
  induction ws generalizing s with
  | nil => exact ⟨[], s, rfl⟩
  | cons w ws ih =>
    have hissued : (issueFirst s w).Inv := ⟨hs.cfgWf, hs.block⟩
    obtain ⟨m, hm⟩ := hissued.goesOn_step
    obtain ⟨rs, t, ht⟩ := ih (hissued.step hm)
    exact ⟨_, t, converse_cons hm ht⟩

/-- A conversation without CLR leaves a block in READY as it was but for `rd_idx`. -/
theorem converse_ready_writes_rdIdx_only {ws : List CommandWord} {s t : State} {rs : List ResponseWord} (hm : s.blk.mode = .ready)
    (hclr : encode .clr ∉ ws) (h : converse ws s = .next (rs, t)) : t.blk = { s.blk with rdIdx := t.blk.rdIdx } := by
  induction ws generalizing s rs with
  | nil => cases h; rfl
  | cons w ws ih =>
    obtain ⟨m, rs', hstep, hrest, -⟩ := converse_cons_inv h
    have hfirst := step_ready_writes_rdIdx_only hm (List.ne_of_not_mem_cons hclr).symm hstep
    have hlast := ih (by rw [hfirst]; exact hm) (List.not_mem_of_not_mem_cons hclr) hrest
    rw [hlast, hfirst]

/-- `FB` does not look at `rd_idx`. -/
theorem frameBit_with_rdIdx (cfg : Config) (blk : Block) (n i : Nat) :
    frameBit cfg { blk with rdIdx := n } i = frameBit cfg blk i := rfl

/-- Settles O33: the conversation goes on from a good state, moves `rd_idx` alone, and ends in a good state, where `rd_idx` lies in the
frame. -/
theorem theFrameIsStableInReady : Obligations.TheFrameIsStableInReady := by
  intro s ws hs hm hclr
  obtain ⟨rs, t, ht⟩ := hs.converse_goesOn ws
  have hblk := converse_ready_writes_rdIdx_only hm hclr ht
  have hflen : t.blk.flen = s.blk.flen := by rw [hblk]
  refine ⟨rs, t, ht, hblk, hflen ▸ (hs.converse ht).block.rdIdx_le_flen, fun i => ?_⟩
  rw [converse_cfg ht, hblk, frameBit_with_rdIdx]

/-- Settles O34: the POPs that are left drain the frame, and a drained frame answers DRAINED. -/
theorem popsHandOutTheFrameInOrder : Obligations.PopsHandOutTheFrameInOrder := by
  intro s hs hm
  obtain ⟨rs, t, ht, hbits, hblk⟩ := hs.converse_popWords hm (Nat.add_sub_cancel' hs.block.rdIdx_le_flen)
  have hready : t.blk.mode = .ready := by rw [hblk]; exact hm
  have hdrained : t.blk.rdIdx = t.blk.flen := by rw [hblk]
  exact ⟨rs, t, ht, hbits, hblk, exec_of_ok (hs.converse ht).cfgWf (popEffect_of_drained hready hdrained)⟩

/-- Settles O35: a transmitter's commands put the frame that READY holds on the wire once for each cycle. -/
theorem cyclesRepeatTheFrame : Obligations.CyclesRepeatTheFrame := by
  intro s cycles hs hm hr
  have hholds : s.HoldsFrame (frameOf s.cfg s.blk) := ⟨hs, hm, rfl⟩
  obtain ⟨t, rs, hconv, -, hbits⟩ := hholds.sends_transmitWords hr cycles
  rw [hholds.flen_eq]
  exact ⟨rs, t, hconv, hbits⟩

end Sys2Proof.Machine

/-! PROOFS. Which commands write which fields of the block, and with which codes they answer (spec/10_state.md rules R12 and R15 to R21,
spec/30_encoding.md rule R48). -/

namespace Sys2Proof.Machine

/-- Settles O19: each of the four things a step can do leaves the configuration. -/
theorem noStepWritesTheConfiguration : Obligations.NoStepWritesTheConfiguration := fun _ _ => step_cfg

/-- Settles O49: with nothing pending the step is the idle one, which returns the state it found. -/
theorem theBlockHoldsItsStateBetweenCommands : Obligations.TheBlockHoldsItsStateBetweenCommands := fun s hwf hp =>
  ⟨s, step_idle_next hwf hp, rfl, rfl, rfl, rfl, rfl, rfl⟩

/-! ### The code and the response of an answer -/

/-- The codes that the table of R48 lists for each command. -/
def answerCodes : Instr → List RespCode
  | .clr => [.ok]
  | .push _ => [.ok, .drop, .full, .badstate]
  | .build => [.ok, .empty, .badstate]
  | .pop => [.ok, .badstate, .drained]
  | .rewind => [.ok, .badstate]

/-- The response port shows the answer's code and bit, and nothing else. -/
theorem answer_resp_eq_iff {s : State} {a : Answer} {code : RespCode} {bit : Bit} :
    (answer s a).resp = some (responseWord code bit) ↔ a.code = code ∧ a.bit = bit := by
  simp

section
variable {i : Instr} {cfg : Config} {blk : Block} {a : Answer}

theorem effectOf_code_mem_answerCodes (h : effectOf i cfg blk = .ok a) : a.code ∈ answerCodes i := by
  cases i with
  | clr => rw [clrEffect_ok h]; simp [answerCodes]
  | push c =>
    rcases pushEffect_ok h with ⟨-, rfl⟩ | ⟨-, -, rfl⟩ | ⟨-, -, -, rfl⟩ | ⟨-, -, -, _, -, rfl⟩ <;> simp [answerCodes]
  | build => rcases buildEffect_ok h with ⟨-, rfl⟩ | ⟨-, -, rfl⟩ | ⟨-, -, rfl⟩ <;> simp [answerCodes]
  | pop => rcases popEffect_ok h with ⟨-, rfl⟩ | ⟨-, -, rfl⟩ | ⟨-, -, _, -, rfl⟩ <;> simp [answerCodes]
  | rewind => rcases rewindEffect_ok h with ⟨-, rfl⟩ | ⟨-, rfl⟩ <;> simp [answerCodes]

/-- Only POP answers output bit 1, so the response of another command tells its code. -/
theorem code_ne_of_resp_ne (h : effectOf i cfg blk = .ok a) (hi : i ≠ .pop) {s : State} {code : RespCode}
    (hresp : (answer s a).resp ≠ some (responseWord code false)) : a.code ≠ code := by
  rcases effectOf_bit h with ⟨hpop, -⟩ | ⟨-, hbit⟩
  · exact absurd hpop hi
  · exact fun hcode => hresp (answer_resp_eq_iff.2 ⟨hcode, hbit⟩)

end

/-- Settles O7: the code of every path is in its command's row of the table. -/
theorem commandsAnswerOnlyTheirCodes : Obligations.CommandsAnswerOnlyTheirCodes := by
  intro i s t h
  obtain ⟨-, a, ha, rfl⟩ := exec_next h
  have hmem := effectOf_code_mem_answerCodes ha
  refine ⟨a.code, a.bit, rfl, ?_, ?_, ?_, ?_, ?_⟩
  · rintro rfl; simpa [answerCodes] using hmem
  · rintro c rfl; simpa [answerCodes] using hmem
  · rintro rfl; simpa [answerCodes] using hmem
  · rintro rfl; simpa [answerCodes] using hmem
  · rintro rfl; simpa [answerCodes] using hmem

/-! ### The writers of `pbuf` -/

/-- Only a PUSH that answers OK writes cells, and then those of one more character. -/
theorem effectOf_pbuf {i : Instr} {cfg : Config} {blk : Block} {a : Answer} (h : effectOf i cfg blk = .ok a) :
    a.blk.pbuf = blk.pbuf ∨
      ∃ c, i = .push c ∧ a.code = .ok ∧ a.bit = false ∧
        ∀ k, k < 8 * blk.cc ∨ 8 * blk.cc + 8 ≤ k → cellAt a.blk.pbuf k = cellAt blk.pbuf k := by
  cases i with
  | clr => rw [clrEffect_ok h]; exact .inl rfl
  | push c =>
    rcases pushEffect_ok h with ⟨-, rfl⟩ | ⟨-, -, rfl⟩ | ⟨-, -, -, rfl⟩ | ⟨-, -, -, cells, hw, rfl⟩
    · exact .inl rfl
    · exact .inl rfl
    · exact .inl rfl
    · obtain ⟨-, hframe, -, -⟩ := pbWriteBits_ok hw
      exact .inr ⟨c, rfl, rfl, rfl, hframe⟩
  | build => rcases buildEffect_ok h with ⟨-, rfl⟩ | ⟨-, -, rfl⟩ | ⟨-, -, rfl⟩ <;> exact .inl rfl
  | pop => rcases popEffect_ok h with ⟨-, rfl⟩ | ⟨-, -, rfl⟩ | ⟨-, -, _, -, rfl⟩ <;> exact .inl rfl
  | rewind => rcases rewindEffect_ok h with ⟨-, rfl⟩ | ⟨-, rfl⟩ <;> exact .inl rfl

/-- Settles O16: of what a step can do, only the run of a storing PUSH does not leave the buffer as it found it. -/
theorem onlyAStoringPushWritesTheBuffer : Obligations.OnlyAStoringPushWritesTheBuffer := by
  intro s t h
  obtain ⟨-, ⟨-, rfl⟩ | ⟨rest, -, rfl⟩ | ⟨w, rest, i, a, hp, hd, ha, rfl⟩ | ⟨w, rest, e, -, -, rfl⟩⟩ := step_next h
  · exact .inl fun _ => rfl
  · exact .inl fun _ => rfl
  · rcases effectOf_pbuf ha with hkept | ⟨c, rfl, hcode, hbit, hframe⟩
    · exact .inl fun k => congrArg (cellAt · k) hkept
    · exact .inr ⟨w, rest, c, hp, hd, answer_resp_eq_iff.2 ⟨hcode, hbit⟩, hframe⟩
  · exact .inl fun _ => rfl

/-! ### The writers of `cc`, `p1` and `rawpar` -/

section
variable {i : Instr} {c : Code} {cfg : Config} {blk : Block} {a : Answer}

/-- PUSH answers OK only where it counted the code (R16 to R18). -/
theorem pushEffect_accumulates_of_code_ok (h : effectOf (.push c) cfg blk = .ok a) (hok : a.code = .ok) :
    a.blk.cc = blk.cc + 1 ∧ a.blk.p1 = xor blk.p1 (codeParity c) ∧ a.blk.rawpar = !blk.rawpar := by
  rcases pushEffect_ok h with ⟨-, rfl⟩ | ⟨-, -, rfl⟩ | ⟨-, -, -, rfl⟩ | ⟨-, -, -, cells, -, rfl⟩
  · cases hok
  · cases hok
  · cases hok
  · exact ⟨rfl, rfl, rfl⟩

/-- No command but CLR and a PUSH that answers OK or DROP writes an accumulator. -/
theorem effectOf_keeps_accumulators (h : effectOf i cfg blk = .ok a) (hclr : i ≠ .clr)
    (hpush : ∀ c, i = .push c → isError a.code = true) :
    a.blk.cc = blk.cc ∧ a.blk.p1 = blk.p1 ∧ a.blk.rawpar = blk.rawpar := by
  cases i with
  | clr => exact absurd rfl hclr
  | push c => rw [(effectOf_error h (hpush c rfl)).1]; exact ⟨rfl, rfl, rfl⟩
  | build => rcases buildEffect_ok h with ⟨-, rfl⟩ | ⟨-, -, rfl⟩ | ⟨-, -, rfl⟩ <;> exact ⟨rfl, rfl, rfl⟩
  | pop => rcases popEffect_ok h with ⟨-, rfl⟩ | ⟨-, -, rfl⟩ | ⟨-, -, _, -, rfl⟩ <;> exact ⟨rfl, rfl, rfl⟩
  | rewind => rcases rewindEffect_ok h with ⟨-, rfl⟩ | ⟨-, rfl⟩ <;> exact ⟨rfl, rfl, rfl⟩

end

/-- Settles O17: the writers are CLR, reset, and PUSH on its OK and DROP paths; every other answer keeps the accumulators. -/
theorem accumulatorsMoveOnlyAsTheirRulesSay : Obligations.AccumulatorsMoveOnlyAsTheirRulesSay := by
  refine ⟨fun i s t h => ?_, fun s t h => ?_⟩
  · obtain ⟨-, a, ha, rfl⟩ := exec_next h
    refine ⟨?_, ?_, ?_, fun hclr hresp => ?_⟩
    · rintro rfl
      rw [clrEffect_ok ha]
      exact ⟨rfl, rfl, rfl⟩
    · rintro c rfl hresp
      exact pushEffect_accumulates_of_code_ok ha (answer_resp_eq_iff.1 hresp).1
    · rintro c rfl hresp
      rw [answer_blk, effectOf_drop ha (answer_resp_eq_iff.1 hresp).1]
      exact ⟨rfl, rfl, rfl⟩
    · refine effectOf_keeps_accumulators ha hclr ?_
      rintro c rfl
      obtain ⟨hok, hdrop⟩ := hresp c rfl
      exact isError_iff.2 ⟨code_ne_of_resp_ne ha nofun hok, code_ne_of_resp_ne ha nofun hdrop⟩
  · obtain ⟨-, rfl⟩ := takeReset_next h
    exact ⟨rfl, rfl, rfl⟩

/-! ### The writers of `t1`, `t2`, `flen` and `rd_idx` -/

section
variable {i : Instr} {c : Code} {cfg : Config} {blk : Block} {a : Answer}

/-- BUILD answers OK only where it formed the frame (R19 to R21). -/
theorem buildEffect_latches_of_code_ok (h : effectOf .build cfg blk = .ok a) (hok : a.code = .ok) :
    a.blk.t1 = blk.p1 ∧ a.blk.t2 = p2 cfg blk ∧ a.blk.flen = cfg.ls + 8 * blk.cc + 2 + cfg.le ∧ a.blk.rdIdx = 0 := by
  rcases buildEffect_ok h with ⟨-, rfl⟩ | ⟨-, -, rfl⟩ | ⟨-, -, rfl⟩
  · cases hok
  · cases hok
  · exact ⟨rfl, rfl, rfl, rfl⟩

theorem popEffect_rdIdx_of_code_ok (h : effectOf .pop cfg blk = .ok a) (hok : a.code = .ok) : a.blk.rdIdx = blk.rdIdx + 1 := by
  rcases popEffect_ok h with ⟨-, rfl⟩ | ⟨-, -, rfl⟩ | ⟨-, -, b, -, rfl⟩
  · cases hok
  · cases hok
  · rfl

theorem rewindEffect_rdIdx_of_code_ok (h : effectOf .rewind cfg blk = .ok a) (hok : a.code = .ok) : a.blk.rdIdx = 0 := by
  rcases rewindEffect_ok h with ⟨-, rfl⟩ | ⟨-, rfl⟩
  · cases hok
  · rfl

theorem pushEffect_rdIdx (h : effectOf (.push c) cfg blk = .ok a) : a.blk.rdIdx = blk.rdIdx := by
  rcases pushEffect_ok h with ⟨-, rfl⟩ | ⟨-, -, rfl⟩ | ⟨-, -, -, rfl⟩ | ⟨-, -, -, _, -, rfl⟩ <;> rfl

/-- No command but CLR and a BUILD that answers OK writes the trailer or the length of the frame. -/
theorem effectOf_keeps_trailer_and_flen (h : effectOf i cfg blk = .ok a) (hclr : i ≠ .clr) (hbuild : i = .build → a.code ≠ .ok) :
    a.blk.t1 = blk.t1 ∧ a.blk.t2 = blk.t2 ∧ a.blk.flen = blk.flen := by
  cases i with
  | clr => exact absurd rfl hclr
  | push c =>
    rcases pushEffect_ok h with ⟨-, rfl⟩ | ⟨-, -, rfl⟩ | ⟨-, -, -, rfl⟩ | ⟨-, -, -, _, -, rfl⟩ <;> exact ⟨rfl, rfl, rfl⟩
  | build =>
    rcases buildEffect_ok h with ⟨-, rfl⟩ | ⟨-, -, rfl⟩ | ⟨-, -, rfl⟩
    · exact ⟨rfl, rfl, rfl⟩
    · exact ⟨rfl, rfl, rfl⟩
    · exact absurd rfl (hbuild rfl)
  | pop => rcases popEffect_ok h with ⟨-, rfl⟩ | ⟨-, -, rfl⟩ | ⟨-, -, _, -, rfl⟩ <;> exact ⟨rfl, rfl, rfl⟩
  | rewind => rcases rewindEffect_ok h with ⟨-, rfl⟩ | ⟨-, rfl⟩ <;> exact ⟨rfl, rfl, rfl⟩

end

/-- Settles O18: the writers are CLR, reset, BUILD answering OK, and for `rd_idx` also POP and REWIND answering OK. -/
theorem frameFieldsMoveOnlyAsTheirRulesSay : Obligations.FrameFieldsMoveOnlyAsTheirRulesSay := by
  refine ⟨fun i s t h => ?_, fun s t h => ?_⟩
  · obtain ⟨-, a, ha, rfl⟩ := exec_next h
    refine ⟨?_, ?_, ?_, ?_, fun hclr hresp => ?_, ?_⟩
    · rintro rfl
      rw [clrEffect_ok ha]
      exact ⟨rfl, rfl, rfl, rfl⟩
    · rintro rfl hresp
      exact buildEffect_latches_of_code_ok ha (answer_resp_eq_iff.1 hresp).1
    · rintro rfl ⟨b, hresp⟩
      exact popEffect_rdIdx_of_code_ok ha (answer_resp_eq_iff.1 hresp).1
    · rintro rfl hresp
      exact rewindEffect_rdIdx_of_code_ok ha (answer_resp_eq_iff.1 hresp).1
    · refine effectOf_keeps_trailer_and_flen ha hclr ?_
      rintro rfl
      exact code_ne_of_resp_ne ha nofun (hresp rfl)
    · rintro (⟨c, rfl⟩ | ⟨code, hresp, herr⟩)
      · exact pushEffect_rdIdx ha
      · obtain ⟨rfl, -⟩ := answer_resp_eq_iff.1 hresp
        rw [answer_blk, (effectOf_error ha herr).1]
  · obtain ⟨-, rfl⟩ := takeReset_next h
    exact ⟨rfl, rfl, rfl, rfl⟩

end Sys2Proof.Machine

/-! PROOFS. A conversation of the host is a run of the machine (spec/60_exceptions.md rule R98): a step reads nothing of the command port
behind its own word. -/

namespace Sys2Proof.Machine

/-- A word is answered alike whatever the host asks after it, and what it asks stays at the port. -/
theorem step_issueFirst_next {s t : State} {w : CommandWord} (h : step (issueFirst s w) = .next t) :
    ∃ a, t = answer s a ∧
      ∀ rest, step { s with pending := .command w :: rest } = .next (answer { s with pending := rest } a) := by
  cases hd : decode w with
  | ok i =>
    obtain ⟨hwf, a, ha, rfl⟩ := exec_next (step_command (s := issueFirst s w) rfl hd ▸ h)
    exact ⟨a, rfl, fun _ => step_command_next hwf rfl hd ha⟩
  | error e =>
    obtain ⟨hwf, a, ha, rfl⟩ := perform_next (step_illegal (s := issueFirst s w) rfl hd ▸ h)
    cases ha
    exact ⟨_, rfl, fun _ => step_illegal_next hwf rfl hd⟩

theorem core_run_succ {s t : State} (h : step s = .next t) (n : Nat) : core.run (n + 1) s = core.run n t := by
  have hcore : core.step s = .next t := h
  simp only [Host.Core.run, hcore]

/-- Settles O53: by induction over the words, each step of the run being that of the conversation with the later words still waiting. -/
theorem aConversationIsARunOfTheMachine : Obligations.AConversationIsARunOfTheMachine := by
  intro s u ws rs h
  induction ws generalizing s rs with
  | nil => cases h; exact ⟨rfl, rfl⟩
  | cons w ws ih =>
    obtain ⟨t, rs', hstep, hrest, rfl⟩ := converse_cons_inv h
    obtain ⟨a, rfl, hrun⟩ := step_issueFirst_next hstep
    obtain ⟨hend, hlen⟩ := ih _ _ hrest
    exact ⟨(core_run_succ (hrun _) _).trans hend, by simp [hlen]⟩

end Sys2Proof.Machine

/-! PROOFS. Lines of the assembler (spec/30_encoding.md rule R50). -/

namespace Sys2Proof.Machine

theorem push_wf_iff {v : Imm8} : (AsmLine.push v).wf = true ↔ v.value ≤ 255 := decide_eq_true_iff

theorem assembleLine_push_number (n : Nat) :
    assembleLine (.push (.number n)) = if n ≤ 255 then .ok [encode (.push (BitVec.ofNat 8 n))] else .error .outOfRange := by
  split
  · next h => exact assembleLine_of_wf (push_wf_iff.2 h)
  · next h => exact assembleLine_of_not_wf (mt push_wf_iff.1 h)

theorem assembleLine_push_quoted_of_gt {x : Char} (h : 255 < x.toNat) : assembleLine (.push (.quoted x)) = .error .outOfRange :=
  assembleLine_of_not_wf (mt push_wf_iff.1 (Nat.not_le_of_lt h))

theorem assembleLine_word_toNat (w : CommandWord) : assembleLine (.word w.toNat) = .ok [w] := by
  have hwf : (AsmLine.word w.toNat).wf = true := decide_eq_true (Nat.le_of_lt_succ w.isLt)
  rw [assembleLine_of_wf hwf, lineWords, BitVec.ofNat_toNat, BitVec.setWidth_eq]

/-- Settles O52: the four lines are read by evaluation; an operand is refused exactly when it is above 255, and a word always has 16
bits. -/
theorem assemblerLinesReadAsWritten : Obligations.AssemblerLinesReadAsWritten :=
  ⟨by decide, assembleLine_push_number, fun _ => assembleLine_push_quoted_of_gt, assembleLine_word_toNat⟩

end Sys2Proof.Machine
